-- ==== Sys2Proof/Word.lean ====
section
/-! DEFINITION. The number types of the unit: every data value is an unsigned natural (spec/00_scope.md 5.1, R17). A W-bit
or KW-bit register, port or field is a `Nat` whose bound is stated beside it, for W and KW are open (R8, log entry 1);
opcode and status have the fixed width 3 (R9). -/

namespace Sys2Proof

/-- The 3-bit opcode (R9, R56). -/
abbrev Opcode := BitVec 3

/-- The 3-bit status code (R9, R140). -/
abbrev StatusCode := BitVec 3

end Sys2Proof
end

