-- ==== Sys2Proof/Config.lean ====
section
/-! DEFINITION. The two size parameters of the unit (spec/00_scope.md R8). They are configuration, not state
(spec/10_state.md R39); no rule depends on a particular value, so they are an argument of the definitions that
mention a width and of nothing else (log entry 1). -/

namespace Sys2Proof

/-- The open parameters of R8: `W` bits for each of a, b, p and every coordinate, `KW` bits for the scalar. -/
structure Sizes where
  W : Nat
  KW : Nat
  deriving DecidableEq, Repr

/-- The constraints of R8. -/
abbrev Sizes.Legal (z : Sizes) : Prop := 2 ≤ z.W ∧ 1 ≤ z.KW

/-- The sizes spec/opcode_table.json and spec/95_test_vectors.md write their frames for (log entry 5). -/
def tableSizes : Sizes := { W := 8, KW := 8 }

end Sys2Proof
end

