-- ==== Sys2Proof/Syntax.lean ====
section
/-! DEFINITION. The commands (spec/30_encoding.md R55, R56; spec/opcode_table.json): one constructor per row. Every
command carries all ten operand fields, for the accept transition latches them all, whichever it reads (spec/10_state.md
R23, R32; log entry 10). -/

namespace Sys2Proof

/-- The ten operand fields of a command, also the ten operand registers (R22, R55). -/
structure Operands where
  a : Nat
  b : Nat
  p : Nat
  inf0 : Bool
  x0 : Nat
  y0 : Nat
  inf1 : Bool
  x1 : Nat
  y1 : Nat
  k : Nat
  deriving DecidableEq, Repr

/-- All fields zero: the operand registers after reset (R37) and the idle ports of the model. -/
def Operands.zero : Operands :=
  { a := 0, b := 0, p := 0, inf0 := false, x0 := 0, y0 := 0, inf1 := false, x1 := 0, y1 := 0, k := 0 }

/-- The rows of the opcode map (R56, R57). -/
inductive Instr where
  /-- `ONCURVE`, op 1: the on-curve predicate (R76). -/
  | oncurve (o : Operands)
  /-- `PADD`, op 2: point addition (R86). -/
  | padd (o : Operands)
  /-- `PDBL`, op 3: point doubling (R101). -/
  | pdbl (o : Operands)
  /-- `SMDAA`, op 4: scalar multiplication by double-and-add (R111). -/
  | smdaa (o : Operands)
  /-- `SMLAD`, op 5: scalar multiplication by the Montgomery ladder (R126). -/
  | smlad (o : Operands)
  /-- `RESERVED_0`, op 0: completes with ILLEGAL_OP (R57, R145). -/
  | reserved0 (o : Operands)
  /-- `RESERVED_6`, op 6: completes with ILLEGAL_OP (R57, R145). -/
  | reserved6 (o : Operands)
  /-- `RESERVED_7`, op 7: completes with ILLEGAL_OP (R57, R145). -/
  | reserved7 (o : Operands)
  deriving DecidableEq, Repr

/-- The operand fields a command carries. -/
def Instr.operands : Instr → Operands
  | .oncurve o => o
  | .padd o => o
  | .pdbl o => o
  | .smdaa o => o
  | .smlad o => o
  | .reserved0 o => o
  | .reserved6 o => o
  | .reserved7 o => o

end Sys2Proof
end

