-- ==== Sys2Proof/WellFormed.lean ====
section
/-! DEFINITION. What can be presented on the ports of a unit of given sizes: a value that does not fit its port cannot
be written down (spec/30_encoding.md R62, R63). No other field value is illegal (R57). -/

namespace Sys2Proof

/-- The field that does not fit its port. -/
inductive Misfit where
  | a
  | b
  | p
  | x0
  | y0
  | x1
  | y1
  | k
  deriving DecidableEq, Repr

/-- The first field, in the frame's order, that does not fit its port (R55, R62, R63). -/
def Operands.misfit (z : Sizes) (o : Operands) : Option Misfit :=
  if 2 ^ z.W ≤ o.a then some .a
  else if 2 ^ z.W ≤ o.b then some .b
  else if 2 ^ z.W ≤ o.p then some .p
  else if 2 ^ z.W ≤ o.x0 then some .x0
  else if 2 ^ z.W ≤ o.y0 then some .y0
  else if 2 ^ z.W ≤ o.x1 then some .x1
  else if 2 ^ z.W ≤ o.y1 then some .y1
  else if 2 ^ z.KW ≤ o.k then some .k
  else none

/-- Every field fits its port. -/
abbrev Operands.Fits (z : Sizes) (o : Operands) : Prop :=
  o.a < 2 ^ z.W ∧ o.b < 2 ^ z.W ∧ o.p < 2 ^ z.W ∧ o.x0 < 2 ^ z.W ∧ o.y0 < 2 ^ z.W ∧ o.x1 < 2 ^ z.W ∧
    o.y1 < 2 ^ z.W ∧ o.k < 2 ^ z.KW

/-- A well-formed command of a unit of sizes `z`. -/
def Instr.wellFormed (z : Sizes) (i : Instr) : Bool := (i.operands.misfit z).isNone

end Sys2Proof
end

