-- ==== Sys2Proof/Decode.lean ====
section
/-! DEFINITION. The command frame (spec/30_encoding.md R55), the opcode map (R56, R57), the decoder, total on every
number, and the encoder. The decoder takes each field at the bit position R55's table gives it; the encoder
concatenates the ports in R55's order, opcode lowest. -/

namespace Sys2Proof

/-- `v[hi:lo]` of spec/00_scope.md 5.1, with the field's width in place of `hi`: `hi - lo + 1 = width`. -/
def field (v lo width : Nat) : Nat := v / 2 ^ lo % 2 ^ width

/-- `CMD` is `7W + KW + 5` bits wide (R55). -/
def frameWidth (z : Sizes) : Nat := 7 * z.W + z.KW + 5

/-- The operand fields of a frame, at the positions of R55's table. -/
def operandsOfFrame (z : Sizes) (f : Nat) : Operands where
  a := field f 3 z.W
  b := field f (z.W + 3) z.W
  p := field f (2 * z.W + 3) z.W
  inf0 := field f (3 * z.W + 3) 1 == 1
  x0 := field f (3 * z.W + 4) z.W
  y0 := field f (4 * z.W + 4) z.W
  inf1 := field f (5 * z.W + 4) 1 == 1
  x1 := field f (5 * z.W + 5) z.W
  y1 := field f (6 * z.W + 5) z.W
  k := field f (7 * z.W + 5) z.KW

/-- `op` is bits `[2:0]` of a frame (R55). -/
def opcodeOfFrame (f : Nat) : Opcode := BitVec.ofNat 3 (field f 0 3)

/-- The opcode map, from a code to its row (R56, R57). All eight codes have a row; the last line is code 7. -/
def Instr.ofFields (op : Opcode) (o : Operands) : Instr :=
  if op = 0 then .reserved0 o
  else if op = 1 then .oncurve o
  else if op = 2 then .padd o
  else if op = 3 then .pdbl o
  else if op = 4 then .smdaa o
  else if op = 5 then .smlad o
  else if op = 6 then .reserved6 o
  else .reserved7 o

/-- The opcode map, from a row to its code (R56, R57). -/
def Instr.opcode : Instr → Opcode
  | .oncurve _ => 1
  | .padd _ => 2
  | .pdbl _ => 3
  | .smdaa _ => 4
  | .smlad _ => 5
  | .reserved0 _ => 0
  | .reserved6 _ => 6
  | .reserved7 _ => 7

/-- Why a number is no command frame. -/
inductive DecodeError where
  /-- The number has a bit above the frame's last one, which no port carries (R55; log entry 6). -/
  | frameTooWide
  deriving DecidableEq, Repr

/-- The command a frame spells. Every number of at most `7W + KW + 5` bits is one (R57: no field other than `op` has a
reserved value, and a reserved opcode is a command that fails). -/
def decode (z : Sizes) (f : Nat) : Except DecodeError Instr :=
  if f < 2 ^ frameWidth z then .ok (Instr.ofFields (opcodeOfFrame f) (operandsOfFrame z f)) else .error .frameTooWide

/-- The frame of a command: the ports concatenated in R55's order, the opcode in the least significant bits. -/
def encode (z : Sizes) (i : Instr) : Nat :=
  let o := i.operands
  i.opcode.toNat + 2 ^ 3 * (o.a + 2 ^ z.W * (o.b + 2 ^ z.W * (o.p + 2 ^ z.W * (o.inf0.toNat + 2 * (o.x0 + 2 ^ z.W *
    (o.y0 + 2 ^ z.W * (o.inf1.toNat + 2 * (o.x1 + 2 ^ z.W * (o.y1 + 2 ^ z.W * o.k)))))))))

/-- The command of an opcode-table word: the table's frames are written for W = KW = 8, so a frame is 69 bits. `nbits` is
in whole bytes; bits past the frame's 69 only fill its last byte and stand for no port (log entry 5). -/
def decodeTableWord (nbits w : Nat) : Option Instr :=
  match decode tableSizes (w % 2 ^ min nbits (frameWidth tableSizes)) with
  | .ok i => some i
  | .error _ => none

end Sys2Proof
end

