-- ==== Sys2Proof/Machine/State.lean ====
section
/-! DEFINITION. The state of the unit (spec/10_state.md R22 to R30), as plain data, and its value after reset (R37). The
field `edges` is the model's own: what the input ports will carry at the coming rising edges, and how far an execution
gets by each (log entries 2 and 3). -/

namespace Sys2Proof.Machine

/-- `Point = Inf | Aff(x, y)` (spec/00_scope.md R18). -/
inductive Point where
  | inf
  | aff (x y : Nat)
  deriving DecidableEq, Repr

/-- The failure kinds (spec/60_exceptions.md R140). -/
inductive FailKind where
  | equalPoints
  | zeroY
  | noInverse
  | operandRange
  | badModulus
  | illegalOp
  deriving DecidableEq, Repr

/-- `Outcome = Ok(Point) | Ok(Bool) | Err(E)` of a command (spec/00_scope.md R19). -/
inductive CmdOutcome where
  | point (pt : Point)
  | bool (v : Bool)
  | err (e : FailKind)
  deriving DecidableEq, Repr

/-- The kinds of sub-operation `TRACE` is spelled in: `A` an addition, `D` a doubling (R30). -/
inductive SubOp where
  | A
  | D
  deriving DecidableEq, Repr

/-- `PHASE` (R25). Its third code is never taken and has no constructor. -/
inductive Phase where
  | idle
  | busy
  | done
  deriving DecidableEq, Repr

/-- The result registers (R24). -/
structure ResultRegs where
  status : StatusCode
  flag : Bool
  infr : Bool
  xr : Nat
  yr : Nat
  deriving DecidableEq, Repr

/-- The result registers as accept and reset leave them (R32, R37). -/
def ResultRegs.cleared : ResultRegs := { status := 0, flag := false, infr := false, xr := 0, yr := 0 }

/-- The working registers of `SMDAA` and `SMLAD` (R26); `t0` and `t1` are Points (log entry 8). -/
structure WorkRegs where
  t0 : Point
  t1 : Point
  n : Nat
  idx : Nat
  deriving DecidableEq, Repr

/-- The working registers as accept, complete and reset leave them (R26, R37). -/
def WorkRegs.cleared : WorkRegs := { t0 := .inf, t1 := .inf, n := 0, idx := 0 }

/-- How far a running execution gets by one rising edge (R36, R180; log entries 3 and 4). -/
inductive Pace where
  /-- Nothing that a register shows. -/
  | wait
  /-- One loop iteration of `SMDAA` or `SMLAD`, or the end of the execution where no iteration is left. -/
  | iterate
  /-- The execution ends: the complete transition happens at this edge. -/
  | finish
  deriving DecidableEq, Repr

/-- What the input ports carry at one rising edge (R21), with the pace of the execution by that edge. -/
structure Edge where
  rst : Bool
  start : Bool
  op : Opcode
  operands : Operands
  pace : Pace
  deriving DecidableEq, Repr

/-- The host does nothing (log entry 2), and an execution under way ends (log entry 3). -/
def Edge.idle : Edge := { rst := false, start := false, op := 0, operands := Operands.zero, pace := .finish }

/-- The state of the unit. -/
structure State where
  /-- `PHASE` (R25). -/
  phase : Phase
  /-- `OP` (R22). -/
  op : Opcode
  /-- `A`, `B`, `P`, `INF0`, `X0`, `Y0`, `INF1`, `X1`, `Y1`, `K` (R22). -/
  operands : Operands
  /-- `STATUS`, `FLAG`, `INFR`, `XR`, `YR` (R24). -/
  result : ResultRegs
  /-- `T0`, `T1`, `N`, `IDX` (R26). -/
  work : WorkRegs
  /-- `TRACE`, ghost (R30). -/
  trace : List SubOp
  /-- The input-port values of the coming rising edges, the next one first (log entry 2). -/
  edges : List Edge
  deriving DecidableEq, Repr

/-- A fault. It has no constructor: the spec gives the unit nothing that stops it (R143: a failure is an outcome; R181:
every accepted command completes; log entry 9). Nothing raises it, so no difference from the hardware lies in it: safe. -/
inductive Fault
  deriving DecidableEq, Repr

/-- A refusal. -/
inductive Refusal where
  /-- Raised by an arm of `exec` for an instruction with no meaning in the model: safe. No arm raises it now. -/
  | notModelled (mnemonic : String)
  deriving DecidableEq, Repr

/-- The outcome of one step. -/
abbrev StepOutcome := Host.Outcome State Fault Refusal

/-- The machine right after reset (R37), with no input queued (log entry 2). -/
def State.reset : State where
  phase := .idle
  op := 0
  operands := Operands.zero
  result := ResultRegs.cleared
  work := WorkRegs.cleared
  trace := []
  edges := []

end Sys2Proof.Machine
end

