-- ==== Sys2Proof/Machine/Operands.lean ====
section
/-! DEFINITION. Operand forms: point operands and their port encoding (spec/30_encoding.md R59, R60), which points a
command reads (spec/10_state.md R23), the prechecks on them (spec/60_exceptions.md R144 to R147), and the command lines
of R67. -/

namespace Sys2Proof.Machine

/-- `point(inf, x, y)`: with `inf` set the coordinate fields are ignored (R59). -/
def point (inf : Bool) (x y : Nat) : Point := if inf then .inf else .aff x y

/-- Point operand 0 (R22). -/
def pt0 (o : Operands) : Point := point o.inf0 o.x0 o.y0

/-- Point operand 1 (R22). -/
def pt1 (o : Operands) : Point := point o.inf1 o.x1 o.y1

/-- `enc(pt)`, canonical: an infinity has zero coordinates (R60). -/
def encPoint : Point → Bool × Nat × Nat
  | .inf => (true, 0, 0)
  | .aff x y => (false, x, y)

/-- A finite point has both coordinates below `p`; infinity is never out of range (R147). -/
def Point.inRange (p : Nat) : Point → Bool
  | .inf => true
  | .aff x y => decide (x < p) && decide (y < p)

/-- Steps 2 and 3 of the prechecks (R144) for a command with a legal opcode that reads the points `reads`; the first
that fails decides. Step 1 is the opcode map: the reserved rows have meanings of their own. -/
def precheck (p : Nat) (reads : List Point) : Option FailKind :=
  if p < 2 then some .badModulus
  else if reads.all (Point.inRange p) then none
  else some .operandRange

/-- The fields a line of R67 drives; every field it does not name is 0. -/
def lineOperands (a b p : Nat) (P0 P1 : Point) (k : Nat) : Operands :=
  let (inf0, x0, y0) := encPoint P0
  let (inf1, x1, y1) := encPoint P1
  { a := a, b := b, p := p, inf0 := inf0, x0 := x0, y0 := y0, inf1 := inf1, x1 := x1, y1 := y1, k := k }

/-- `ONCURVE a, b, p, P0` (R67). -/
def asmOncurve (a b p : Nat) (P0 : Point) : Instr := .oncurve (lineOperands a b p P0 (.aff 0 0) 0)

/-- `PADD a, b, p, P0, P1` (R67). -/
def asmPadd (a b p : Nat) (P0 P1 : Point) : Instr := .padd (lineOperands a b p P0 P1 0)

/-- `PDBL a, b, p, P0` (R67). -/
def asmPdbl (a b p : Nat) (P0 : Point) : Instr := .pdbl (lineOperands a b p P0 (.aff 0 0) 0)

/-- `SMDAA a, b, p, P0, k` (R67). -/
def asmSmdaa (a b p : Nat) (P0 : Point) (k : Nat) : Instr := .smdaa (lineOperands a b p P0 (.aff 0 0) k)

/-- `SMLAD a, b, p, P0, k` (R67). -/
def asmSmlad (a b p : Nat) (P0 : Point) (k : Nat) : Instr := .smlad (lineOperands a b p P0 (.aff 0 0) k)

end Sys2Proof.Machine
end

