-- ==== Sys2Proof/Machine/Flags.lean ====
section
/-! DEFINITION. The result flags and what the host sees: status codes (spec/60_exceptions.md R140), the result registers
of an outcome (spec/10_state.md R34), the output ports (R21, R31) and the result frame (spec/30_encoding.md R66). -/

namespace Sys2Proof.Machine

/-- `code(E)` (R140); 0 is success and 7 is never produced. -/
def FailKind.code : FailKind → StatusCode
  | .equalPoints => 1
  | .zeroY => 2
  | .noInverse => 3
  | .operandRange => 4
  | .badModulus => 5
  | .illegalOp => 6

/-- What complete writes to the result registers, all at once (R34); on failure no point is shown (R141). -/
def CmdOutcome.result : CmdOutcome → ResultRegs
  | .point pt =>
    let (infr, xr, yr) := encPoint pt
    { status := 0, flag := false, infr := infr, xr := xr, yr := yr }
  | .bool v => { status := 0, flag := v, infr := false, xr := 0, yr := 0 }
  | .err e => { status := e.code, flag := false, infr := false, xr := 0, yr := 0 }

/-- The two bits of `PHASE` (R25). -/
def Phase.code : Phase → BitVec 2
  | .idle => 0
  | .busy => 1
  | .done => 2

/-- The seven output ports (R21). -/
structure Outputs where
  busy : Bool
  done : Bool
  status : StatusCode
  flag : Bool
  infr : Bool
  xr : Nat
  yr : Nat
  deriving DecidableEq, Repr

/-- What the output ports drive: all the host can observe (R21, R24, R31). Reading them changes nothing (R46). -/
def State.outputs (s : State) : Outputs where
  busy := s.phase == .busy
  done := s.phase == .done
  status := s.result.status
  flag := s.result.flag
  infr := s.result.infr
  xr := s.result.xr
  yr := s.result.yr

/-- `RES`, the result ports as one number of `2W + 5` bits, `status` lowest (R66). -/
def State.resFrame (z : Sizes) (s : State) : Nat :=
  s.result.status.toNat + 2 ^ 3 * (s.result.flag.toNat + 2 * (s.result.infr.toNat + 2 * (s.result.xr + 2 ^ z.W *
    s.result.yr)))

end Sys2Proof.Machine
end

