-- ==== Sys2Proof/Machine/Ops.lean ====
section
/-! DEFINITION. The shared operations: the field primitives (spec/00_scope.md R10 to R15), results that carry the
letters of the sub-operations run so far (spec/10_state.md R30), and the transitions accept, complete, hold and reset
(R32, R34, R35; spec/70_reset_and_hazards.md R170). Ending with a failure (spec/60_exceptions.md R141) is
`State.fail`; there is no return from it, the next accept goes on (R155). -/

namespace Sys2Proof.Machine

/-! ## Field primitives -/

/-- `bit(v, i)` (00_scope.md 5.1). -/
def bit (v i : Nat) : Nat := v / 2 ^ i % 2

/-- `bitlen(k)`: 0 for 0, else the `n` with `2^(n-1) <= k < 2^n` (R15). -/
def bitlen (k : Nat) : Nat := if k = 0 then 0 else Nat.log2 k + 1

/-- `addm(u, v) = (u + v) mod p` (R10). -/
def addm (p u v : Nat) : Nat := (u + v) % p

/-- `subm(u, v) = (u - v) mod p`, the difference taken in the integers (R11). -/
def subm (p u v : Nat) : Nat := (((u : Int) - (v : Int)) % (p : Int)).toNat

/-- `mulm(u, v) = (u * v) mod p` (R12). -/
def mulm (p u v : Nat) : Nat := (u * v) % p

/-- The extended Euclid loop: from remainders `r0`, `r1` with coefficients `t0`, `t1`, the coefficient of the last
non-zero remainder. `fuel` bounds the rounds; `r1` falls in each. -/
def euclid : Nat → Nat → Nat → Int → Int → Int
  | 0, _, _, t0, _ => t0
  | fuel + 1, r0, r1, t0, t1 =>
    if r1 = 0 then t0 else euclid fuel r1 (r0 % r1) t1 (t0 - ((r0 / r1 : Nat) : Int) * t1)

/-- `invm(v)`: the unique inverse of `v mod p` in `[0, p)`, or NoInverse where `gcd(v mod p, p) != 1` (R13). How it is
computed is free (93_implementation_defined.md V6; log entry 11); `invm_eq_ok_iff` under Laws says it is R13's value. -/
def invm (p v : Nat) : Except FailKind Nat :=
  if Nat.gcd (v % p) p = 1 then .ok (euclid p p (v % p) 0 1 % (p : Int)).toNat else .error .noInverse

/-! ## Results with their sub-operation letters -/

/-- A result together with the letters of the sub-operations executed to reach it; of a failure the last letter is the
one that failed (R116, R131). -/
structure Traced (α : Type) where
  letters : List SubOp
  out : Except FailKind α
  deriving DecidableEq, Repr

/-- A result that needed no sub-operation. -/
def Traced.pure {α : Type} (v : α) : Traced α := { letters := [], out := .ok v }

/-- Go on with the result; a failure ends the execution at once (R118, R133, R141). -/
def Traced.bind {α β : Type} (r : Traced α) (f : α → Traced β) : Traced β :=
  match r.out with
  | .ok v => { letters := r.letters ++ (f v).letters, out := (f v).out }
  | .error e => { letters := r.letters, out := .error e }

/-! ## Transitions -/

/-- Accept (R32): latch the command, clear the result and working registers and the trace, go busy. -/
def State.accept (op : Opcode) (o : Operands) (s : State) : State where
  phase := .busy
  op := op
  operands := o
  result := ResultRegs.cleared
  work := WorkRegs.cleared
  trace := []
  edges := s.edges

/-- Complete (R34): write the result registers, clear the working registers, go to `DONE`; the trace keeps its final
value, which ends in `letters`. -/
def State.complete (letters : List SubOp) (out : CmdOutcome) (s : State) : State :=
  { s with phase := .done, result := out.result, work := WorkRegs.cleared, trace := s.trace ++ letters }

/-- A failure ends the command (R141): complete with `Err(e)`. -/
def State.fail (letters : List SubOp) (e : FailKind) (s : State) : State := s.complete letters (.err e)

/-- Complete with a point, or with the failure that ended the execution (R34, R141). -/
def State.completePoint (r : Traced Point) (s : State) : State :=
  match r.out with
  | .ok pt => s.complete r.letters (.point pt)
  | .error e => s.fail r.letters e

/-- Run `body` unless a precheck fails; then the command ends with that failure and runs no sub-operation (R144). -/
def prechecked (p : Nat) (reads : List Point) (s : State) (body : StepOutcome) : StepOutcome :=
  match precheck p reads with
  | some e => .next (s.fail [] e)
  | none => body

/-- The edge that comes next; past the queue's end the host is idle (log entry 2). -/
def State.nextEdge (s : State) : Edge :=
  match s.edges with
  | [] => Edge.idle
  | e :: _ => e

/-- The next edge is used up and no register changes: hold (R35), and any edge by which an execution shows nothing. -/
def State.hold (s : State) : State := { s with edges := s.edges.tail }

/-- An edge with `rst == 1` (R170, R171): every register takes its reset value; what the host drives later stays. -/
def State.resetEdge (s : State) : State := { State.reset with edges := s.edges.tail }

/-- The working registers at the start of `SMDAA` and `SMLAD` (R111, R126): `T0 <- Inf`, `T1 <- P0`, `N <- bitlen(k)`,
`IDX <- 0`. `N = 0` says the execution has run no iteration yet (log entry 12). -/
def WorkRegs.load (P0 : Point) (k : Nat) (w : WorkRegs) : WorkRegs :=
  if w.n = 0 then { t0 := .inf, t1 := P0, n := bitlen k, idx := 0 } else w

/-- One loop iteration has ended well: the new pair of points, `IDX <- IDX + 1`, the letters appended (R112, R127). -/
def State.afterIteration (w : WorkRegs) (letters : List SubOp) (t0 t1 : Point) (s : State) : State :=
  { s with work := { w with t0 := t0, t1 := t1, idx := w.idx + 1 }, trace := s.trace ++ letters }

/-- After one loop step: the iteration has ended well, or its failure has ended the command (R118, R133). -/
def State.progress (w : WorkRegs) (r : Traced (Point × Point)) (s : State) : State :=
  match r.out with
  | .ok R => s.afterIteration w r.letters R.1 R.2
  | .error e => s.fail r.letters e

end Sys2Proof.Machine
end

