-- ==== Sys2Proof/Machine/OnCurve.lean ====
section
/-! DEFINITION. `ONCURVE`, the on-curve predicate (spec/41_on_curve.md). -/

namespace Sys2Proof.Machine

/-- `oncurve(a, b, p, P0)` (R76): infinity is on every curve; a finite point iff `y^2 = x^3 + a x + b (mod p)`. -/
def oncurve (a b p : Nat) : Point → Bool
  | .inf => true
  | .aff x y => mulm p y y == addm p (addm p (mulm p (mulm p x x) x) (mulm p a x)) b

/-- `ONCURVE` (R76, R77): the predicate goes to `FLAG`; false is a success; no sub-operation (R81). -/
def execOncurve (o : Operands) (s : State) : StepOutcome :=
  prechecked o.p [pt0 o] s (.next (s.complete [] (.bool (oncurve o.a o.b o.p (pt0 o)))))

end Sys2Proof.Machine
end

