-- ==== Sys2Proof/Machine/Reserved.lean ====
section
/-! DEFINITION. The reserved opcodes (spec/30_encoding.md R57; spec/60_exceptions.md R145): step 1 of the prechecks
(R144), before any operand is examined. -/

namespace Sys2Proof.Machine

/-- A reserved opcode: `STATUS = ILLEGAL_OP`, no operand examined, no sub-operation (R145). -/
def illegal (s : State) : StepOutcome := .next (s.fail [] .illegalOp)

/-- Opcode 0 (R57). -/
def execReserved0 (_o : Operands) (s : State) : StepOutcome := illegal s

/-- Opcode 6 (R57). -/
def execReserved6 (_o : Operands) (s : State) : StepOutcome := illegal s

/-- Opcode 7 (R57). -/
def execReserved7 (_o : Operands) (s : State) : StepOutcome := illegal s

end Sys2Proof.Machine
end

