-- ==== Sys2Proof/Machine/PointAdd.lean ====
section
/-! DEFINITION. `PADD`, point addition (spec/42_point_add.md), also the addition sub-operation of the scalar
multiplications. -/

namespace Sys2Proof.Machine

/-- Case 5 of R86, the chord formula (R90, R91). -/
def chord (p x0 y0 x1 y1 : Nat) : Except FailKind Point :=
  match invm p (subm p x1 x0) with
  | .error e => .error e
  | .ok u =>
    let lam := mulm p (subm p y1 y0) u
    let xr := subm p (subm p (mulm p lam lam) x0) x1
    let yr := subm p (mulm p lam (subm p x0 xr)) y0
    .ok (.aff xr yr)

/-- `padd(p, P0, P1)` (R86): the cases in R86's order, the first that applies. -/
def padd (p : Nat) : Point → Point → Except FailKind Point
  | .inf, P1 => .ok P1
  | .aff x0 y0, .inf => .ok (.aff x0 y0)
  | .aff x0 y0, .aff x1 y1 =>
    if x0 = x1 ∧ y1 = (p - y0) % p ∧ y1 ≠ y0 then .ok .inf
    else if x0 = x1 ∧ y0 = y1 then .error .equalPoints
    else chord p x0 y0 x1 y1

/-- `padd` as one sub-operation, letter `A` whichever case applies and whether or not it fails (R97). -/
def addStep (p : Nat) (P0 P1 : Point) : Traced Point := { letters := [.A], out := padd p P0 P1 }

/-- `PADD` (R86, R94, R97). -/
def execPadd (o : Operands) (s : State) : StepOutcome :=
  prechecked o.p [pt0 o, pt1 o] s (.next (s.completePoint (addStep o.p (pt0 o) (pt1 o))))

end Sys2Proof.Machine
end

