-- ==== Sys2Proof/Machine/PointDouble.lean ====
section
/-! DEFINITION. `PDBL`, point doubling (spec/43_point_double.md), also the doubling sub-operation of the scalar
multiplications. -/

namespace Sys2Proof.Machine

/-- Case 3 of R101, the tangent formula (R104, R105). -/
def tangent (a p x y : Nat) : Except FailKind Point :=
  match invm p (mulm p 2 y) with
  | .error e => .error e
  | .ok u =>
    let lam := mulm p (addm p (mulm p 3 (mulm p x x)) a) u
    let xr := subm p (mulm p lam lam) (mulm p 2 x)
    let yr := subm p (mulm p lam (subm p x xr)) y
    .ok (.aff xr yr)

/-- `pdbl(a, p, P0)` (R101): `y == 0` fails before any arithmetic (R103). -/
def pdbl (a p : Nat) : Point → Except FailKind Point
  | .inf => .ok .inf
  | .aff x y => if y = 0 then .error .zeroY else tangent a p x y

/-- `pdbl` as one sub-operation, letter `D` whichever case applies and whether or not it fails (R109). -/
def doubleStep (a p : Nat) (P0 : Point) : Traced Point := { letters := [.D], out := pdbl a p P0 }

/-- `PDBL` (R101, R107, R109). -/
def execPdbl (o : Operands) (s : State) : StepOutcome :=
  prechecked o.p [pt0 o] s (.next (s.completePoint (doubleStep o.a o.p (pt0 o))))

end Sys2Proof.Machine
end

