-- ==== Sys2Proof/Machine/ScalarDaa.lean ====
section
/-! DEFINITION. `SMDAA`, scalar multiplication by double-and-add, bit 0 first (spec/44_scalar_mul_daa.md). -/

namespace Sys2Proof.Machine

/-- `acc(a, p, Q, T)` (R114): two equal finite points are doubled, anything else is added. -/
def acc (a p : Nat) (Q T : Point) : Traced Point :=
  if Q ≠ .inf ∧ T ≠ .inf ∧ Q = T then doubleStep a p Q else addStep p Q T

/-- `daa_step` (R112): accumulate where the bit is set, with `T` as it was, then double `T` for every bit. -/
def daaStep (a p : Nat) (Q T : Point) (b : Nat) : Traced (Point × Point) :=
  (if b = 1 then acc a p Q T else Traced.pure Q).bind fun Q' =>
    (doubleStep a p T).bind fun T' => Traced.pure (Q', T')

/-- `count` iterations of `daa_step` from bit `i` upward, then the accumulator (R111, R113). -/
def daaLoop (a p : Nat) (k : Nat) : Nat → Nat → Point → Point → Traced Point
  | 0, _, Q, _ => Traced.pure Q
  | count + 1, i, Q, T => (daaStep a p Q T (bit k i)).bind fun QT => daaLoop a p k count (i + 1) QT.1 QT.2

/-- `smdaa(a, p, P0, k)` (R111). -/
def smdaa (a p : Nat) (P0 : Point) (k : Nat) : Traced Point := daaLoop a p k (bitlen k) 0 .inf P0

/-- `SMDAA` (R111, R118): the iterations that are left, from the working registers, which are loaded first where none has
run (R36). -/
def execSmdaa (o : Operands) (s : State) : StepOutcome :=
  let w := s.work.load (pt0 o) o.k
  prechecked o.p [pt0 o] s (.next (s.completePoint (daaLoop o.a o.p o.k (w.n - w.idx) w.idx w.t0 w.t1)))

/-- One unit of `SMDAA`'s progress (R36): the next iteration, or the end where none is left. -/
def iterateSmdaa (o : Operands) (s : State) : StepOutcome :=
  let w := s.work.load (pt0 o) o.k
  prechecked o.p [pt0 o] s (.next
    (if w.n ≤ w.idx then s.completePoint (Traced.pure w.t0)
    else s.progress w (daaStep o.a o.p w.t0 w.t1 (bit o.k w.idx))))

end Sys2Proof.Machine
end

