-- ==== Sys2Proof/Machine/ScalarLadder.lean ====
section
/-! DEFINITION. `SMLAD`, scalar multiplication by the Montgomery ladder, top bit first (spec/45_scalar_mul_ladder.md). -/

namespace Sys2Proof.Machine

/-- `lad_step` (R127): one addition, then one doubling, whatever the bit; the bit selects only what is doubled and which
register receives which result (R130). -/
def ladStep (a p : Nat) (R0 R1 : Point) (b : Nat) : Traced (Point × Point) :=
  (addStep p R0 R1).bind fun S =>
    (doubleStep a p (if b = 0 then R0 else R1)).bind fun T =>
      Traced.pure (if b = 0 then (T, S) else (S, T))

/-- `count` iterations of `lad_step`, for the bits `count - 1` down to 0, then `R0` (R126, R128, R135). -/
def ladLoop (a p : Nat) (k : Nat) : Nat → Point → Point → Traced Point
  | 0, R0, _ => Traced.pure R0
  | count + 1, R0, R1 => (ladStep a p R0 R1 (bit k count)).bind fun R => ladLoop a p k count R.1 R.2

/-- `smlad(a, p, P0, k)` (R126). -/
def smlad (a p : Nat) (P0 : Point) (k : Nat) : Traced Point := ladLoop a p k (bitlen k) .inf P0

/-- `SMLAD` (R126, R133): the iterations that are left, from the working registers, which are loaded first where none has
run (R36). After `IDX` iterations the next bit is `N - IDX - 1`. -/
def execSmlad (o : Operands) (s : State) : StepOutcome :=
  let w := s.work.load (pt0 o) o.k
  prechecked o.p [pt0 o] s (.next (s.completePoint (ladLoop o.a o.p o.k (w.n - w.idx) w.t0 w.t1)))

/-- One unit of `SMLAD`'s progress (R36): the next iteration, or the end where none is left. -/
def iterateSmlad (o : Operands) (s : State) : StepOutcome :=
  let w := s.work.load (pt0 o) o.k
  prechecked o.p [pt0 o] s (.next
    (if w.n ≤ w.idx then s.completePoint (Traced.pure w.t0)
    else s.progress w (ladStep o.a o.p w.t0 w.t1 (bit o.k (w.n - w.idx - 1)))))

end Sys2Proof.Machine
end

