-- ==== Sys2Proof/Machine/Dispatch.lean ====
section
/-! DEFINITION. `exec`, the execute and complete transitions of a command (spec/10_state.md R33, R34): from a busy state
to the `DONE` state its execution ends in. One arm per row of spec/opcode_table.json. -/

namespace Sys2Proof.Machine

-- R33: exec(OP, A, B, P, P0, P1, K), followed by complete
def exec (i : Instr) (s : State) : Host.Outcome State Fault Refusal :=
  match i with
  | .oncurve o => Sys2Proof.Machine.execOncurve o s
  | .padd o => Sys2Proof.Machine.execPadd o s
  | .pdbl o => Sys2Proof.Machine.execPdbl o s
  | .smdaa o => Sys2Proof.Machine.execSmdaa o s
  | .smlad o => Sys2Proof.Machine.execSmlad o s
  | .reserved0 o => Sys2Proof.Machine.execReserved0 o s
  | .reserved6 o => Sys2Proof.Machine.execReserved6 o s
  | .reserved7 o => Sys2Proof.Machine.execReserved7 o s

end Sys2Proof.Machine
end

