-- ==== Sys2Proof/Machine/Progress.lean ====
section
/-! DEFINITION. The command in flight, and what one edge of each pace does to it (spec/10_state.md R33, R36;
spec/70_reset_and_hazards.md R180). -/

namespace Sys2Proof.Machine

/-- The command in flight: what `OP` and the operand registers hold (R22, R33). -/
def State.inFlight (s : State) : Instr := Instr.ofFields s.op s.operands

/-- One unit of progress (R36): a loop iteration of `SMDAA` or `SMLAD`; the other commands have no loop (R27), so their
unit is the whole execution. -/
def iterate (i : Instr) (s : State) : StepOutcome :=
  match i with
  | .oncurve o => exec (.oncurve o) s
  | .padd o => exec (.padd o) s
  | .pdbl o => exec (.pdbl o) s
  | .smdaa o => iterateSmdaa o s
  | .smlad o => iterateSmlad o s
  | .reserved0 o => exec (.reserved0 o) s
  | .reserved6 o => exec (.reserved6 o) s
  | .reserved7 o => exec (.reserved7 o) s

/-- The execution at one edge while `PHASE == BUSY` (R33): it gets as far as the pace says. -/
def execute (pace : Pace) (s : State) : StepOutcome :=
  match pace with
  | .wait => .next s
  | .iterate => iterate s.inFlight s
  | .finish => exec s.inFlight s

/-- The edge at which the host presents the command of frame `f` with `start == 1` (R32, R55). -/
def Edge.present (z : Sizes) (f : Nat) (pace : Pace) : Edge :=
  { rst := false, start := true, op := opcodeOfFrame f, operands := operandsOfFrame z f, pace := pace }

/-- The unit has accepted the command of frame `f` and its execution ends at the very next edge, at which the host does
nothing (log entry 7). -/
def State.withFrame (z : Sizes) (f : Nat) (s : State) : State :=
  let t := s.accept (opcodeOfFrame f) (operandsOfFrame z f)
  { t with edges := Edge.idle :: t.edges }

end Sys2Proof.Machine
end

