-- ==== Sys2Proof/Machine/Step.lean ====
section
/-! DEFINITION. One rising edge of `clk` (spec/10_state.md section 4; spec/70_reset_and_hazards.md R170): reset first,
then execute while busy, accept on `start`, hold otherwise. -/

namespace Sys2Proof.Machine

/-- One rising edge. While busy `start` is not looked at (R176); otherwise it is level-sampled (R178). -/
def step (s : State) : Host.Outcome State Fault Refusal :=
  if s.nextEdge.rst then .next s.resetEdge
  else
    match s.phase with
    | .busy => execute s.nextEdge.pace s.hold
    | .idle => if s.nextEdge.start then .next (s.hold.accept s.nextEdge.op s.nextEdge.operands) else .next s.hold
    | .done => if s.nextEdge.start then .next (s.hold.accept s.nextEdge.op s.nextEdge.operands) else .next s.hold

/-- `s` with the opcode-table word `w` accepted, so that the next step executes it (log entry 7). The bits are taken as
`decodeTableWord` takes them. -/
def State.withFetchWord (s : State) (nbits w : Nat) : State :=
  s.withFrame tableSizes (w % 2 ^ min nbits (frameWidth tableSizes))

end Sys2Proof.Machine
end

