-- ==== Sys2Proof/Safety.lean ====
section
/-! DEFINITION. What the claims speak of: the output invariants a host may rely on (spec/70_reset_and_hazards.md R183),
the lifetime of the working registers (spec/10_state.md R26, R27), the port widths (R8), the ladder's trace
(spec/45_scalar_mul_ladder.md R131), and the elliptic-curve group the operations are claims about. -/

namespace Sys2Proof.Machine

/-! ## Invariants -/

/-- The output invariants of R183, with the code 7 that never occurs (R140). -/
def State.OutputsOk (s : State) : Prop :=
  ¬ (s.outputs.busy = true ∧ s.outputs.done = true) ∧
  (s.phase ≠ .done → s.result = ResultRegs.cleared) ∧
  s.result.status ≠ 7 ∧
  (s.result.status ≠ 0 → s.result.flag = false ∧ s.result.infr = false ∧ s.result.xr = 0 ∧ s.result.yr = 0) ∧
  (s.result.infr = true → s.result.xr = 0 ∧ s.result.yr = 0) ∧
  (s.phase = .done → s.result.status = 0 → s.result.infr = false → s.op ≠ 1 →
    s.result.xr < s.operands.p ∧ s.result.yr < s.operands.p)

/-- An `SMDAA` or `SMLAD` execution that has run at least one iteration: `N` is the scalar's bit length, `IDX` has not
passed it, the prechecks held, and both working points are in range (R26, R27, R144). -/
def State.Looping (s : State) : Prop :=
  (s.op = 4 ∨ s.op = 5) ∧ s.work.n = bitlen s.operands.k ∧ 0 < s.work.idx ∧ s.work.idx ≤ s.work.n ∧
  2 ≤ s.operands.p ∧ (pt0 s.operands).inRange s.operands.p = true ∧
  s.work.t0.inRange s.operands.p = true ∧ s.work.t1.inRange s.operands.p = true

/-- The working registers hold something only while an `SMDAA` or `SMLAD` runs (R26); every other busy state has run
no sub-operation yet (R30, R32). -/
def State.WorkOk (s : State) : Prop :=
  (s.phase ≠ .busy → s.work = WorkRegs.cleared) ∧
  (s.phase = .busy → (s.work = WorkRegs.cleared ∧ s.trace = []) ∨ s.Looping)

/-- `(A D)^n` (R131). -/
def ladderLetters : Nat → List SubOp
  | 0 => []
  | n + 1 => ladderLetters n ++ [.A, .D]

/-- While an `SMLAD` runs its trace is `(A D)^IDX`, and after a success `(A D)^bitlen(k)` (R131). -/
def State.LadderTraceOk (s : State) : Prop :=
  s.op = 5 →
    (s.phase = .busy → s.trace = ladderLetters s.work.idx) ∧
    (s.phase = .done → s.result.status = 0 → s.trace = ladderLetters (bitlen s.operands.k))

/-- The invariant every edge keeps. -/
def State.Inv (s : State) : Prop := s.OutputsOk ∧ s.WorkOk ∧ s.LadderTraceOk

/-- Both coordinates of a finite point fit W bits (R26). -/
def Point.Fits (z : Sizes) : Point → Prop
  | .inf => True
  | .aff x y => x < 2 ^ z.W ∧ y < 2 ^ z.W

/-- Every register, and every queued port value, fits its width (R8, R21, R22, R24, R26). -/
def State.Fits (z : Sizes) (s : State) : Prop :=
  s.operands.Fits z ∧ s.result.xr < 2 ^ z.W ∧ s.result.yr < 2 ^ z.W ∧ s.work.t0.Fits z ∧ s.work.t1.Fits z ∧
  s.work.n ≤ z.KW ∧ s.work.idx ≤ z.KW ∧ ∀ e ∈ s.edges, e.operands.Fits z

/-! ## The state a command ends in -/

/-- The state a command leaves (R34): `DONE`, the result registers, the working registers cleared, the letters of its
sub-operations appended; `OP`, the operand registers and the queued edges as they were. -/
def State.doneWith (s : State) (result : ResultRegs) (letters : List SubOp) : State where
  phase := .done
  op := s.op
  operands := s.operands
  result := result
  work := { t0 := .inf, t1 := .inf, n := 0, idx := 0 }
  trace := s.trace ++ letters
  edges := s.edges

/-- The result registers that show the point `pt` (R34, R60). -/
def pointResult : Point → ResultRegs
  | .inf => { status := 0, flag := false, infr := true, xr := 0, yr := 0 }
  | .aff x y => { status := 0, flag := false, infr := false, xr := x, yr := y }

/-- The result registers that show the boolean `v` (R34, R77). -/
def boolResult (v : Bool) : ResultRegs := { status := 0, flag := v, infr := false, xr := 0, yr := 0 }

/-- The result registers of a failure with status code `c` (R141). -/
def failureResult (c : StatusCode) : ResultRegs := { status := c, flag := false, infr := false, xr := 0, yr := 0 }

/-! ## The loops of the scalar multiplications, as sequences of point pairs -/

/-- `n` is the bit length of `k` (R15). -/
def IsBitLength (k n : Nat) : Prop := k < 2 ^ n ∧ (n ≠ 0 → 2 ^ (n - 1) ≤ k)

/-- In iteration `i` the accumulation, where bit `i` of the scalar asks for one, has the outcome `out` (R112, R114). -/
def Accumulates (o : Operands) (i : Nat) (Q T : Point) (out : Except FailKind Point) : Prop :=
  if o.k.testBit i then
    if Q = T ∧ Q ≠ .inf then pdbl o.a o.p Q = out else padd o.p Q T = out
  else Except.ok Q = out

/-- `(Q i, T i)` are the accumulator and the running base before iteration `i` of `SMDAA`, for the first `m` iterations,
none of which fails (R111, R112). -/
def DaaChain (o : Operands) (Q T : Nat → Point) (m : Nat) : Prop :=
  Q 0 = .inf ∧ T 0 = pt0 o ∧
  ∀ i < m, Accumulates o i (Q i) (T i) (.ok (Q (i + 1))) ∧ pdbl o.a o.p (T i) = .ok (T (i + 1))

/-- The letter of iteration `i`'s accumulation, if it has one (R116). -/
def accLetters (o : Operands) (Q T : Nat → Point) (i : Nat) : List SubOp :=
  if o.k.testBit i then [if Q i = T i ∧ Q i ≠ .inf then .D else .A] else []

/-- The letters of the first `m` iterations of `SMDAA` (R116). -/
def daaLetters (o : Operands) (Q T : Nat → Point) (m : Nat) : List SubOp :=
  (List.range m).flatMap fun i => accLetters o Q T i ++ [.D]

/-- `(R0 i, R1 i)` are the ladder's registers before its iteration number `i`, which takes bit `n - 1 - i`, for the first
`m` iterations, none of which fails (R126, R127). -/
def LadderChain (o : Operands) (n : Nat) (R0 R1 : Nat → Point) (m : Nat) : Prop :=
  R0 0 = .inf ∧ R1 0 = pt0 o ∧
  ∀ i < m,
    if o.k.testBit (n - 1 - i) then
      padd o.p (R0 i) (R1 i) = .ok (R0 (i + 1)) ∧ pdbl o.a o.p (R1 i) = .ok (R1 (i + 1))
    else
      padd o.p (R0 i) (R1 i) = .ok (R1 (i + 1)) ∧ pdbl o.a o.p (R0 i) = .ok (R0 (i + 1))

/-! ## Edges -/

/-- An edge of a host that keeps the discipline of R184 while it waits: no reset, no start; the ports may carry anything
and the execution may get any distance. -/
def Edge.quiet (e : Edge) : Prop := e.rst = false ∧ e.start = false

/-- The edge ends a running execution. -/
def Edge.finishes (e : Edge) : Prop := e.rst = false ∧ e.start = false ∧ e.pace = .finish

/-! ## The group behind the operations (spec/00_scope.md glossary, "valid inputs"; log entry 13) -/

/-- `y^2 = x^3 + a x + b` over the integers modulo `p`. -/
def curve (p : Nat) (a b : Nat) : WeierstrassCurve.Affine (ZMod p) :=
  { a₁ := 0, a₂ := 0, a₃ := 0, a₄ := (a : ZMod p), a₆ := (b : ZMod p) }

/-- The discriminant condition of "valid inputs": `4 a^3 + 27 b^2` is not 0 modulo `p`. -/
def NonSingular (p : Nat) (a b : Nat) : Prop := (4 * a ^ 3 + 27 * b ^ 2) % p ≠ 0

/-- The unit's point `pt` stands for the point `g` of the group: the identity for `Inf`; for `Aff(x, y)` coordinates in
`[0, p)` that satisfy the curve equation. -/
def Represents (p : Nat) (a b : Nat) (pt : Point) (g : (curve p a b).Point) : Prop :=
  match pt with
  | .inf => g = 0
  | .aff x y => x < p ∧ y < p ∧ ∃ h : (curve p a b).Nonsingular (x : ZMod p) (y : ZMod p), g = .some (x : ZMod p) (y : ZMod p) h

end Sys2Proof.Machine
end

