-- ==== Sys2Proof/Certificates/Slice0/Obligations.lean ====
section
/-! DEFINITION. The statements for the provers. `State.doneWith` spells a command's whole next state, so a statement that
uses it states the command's frame too: `OP`, the operand registers and the queued edges unchanged, the trace extended by
the letters named, the working registers cleared. The unit has no memory (spec/20_memory.md R40). What the ports carry at
an edge is an entry of the model's field `edges` (log entry 2); a statement holds for every value of that field. -/

open Sys2Proof Sys2Proof.Machine

/-! ## Encoding -/

/-- Decoding the frame of a well-formed command gives the command back, every field at every value that fits its port. -/
def Obligations.DecodeOfEncodeIsTheCommand : Prop :=
  ∀ (z : Sizes) (i : Instr), i.wellFormed z = true → decode z (encode z i) = .ok i

/-- Every number of `7W + KW + 5` bits is the frame of a well-formed command that encodes back to it; a wider number is
refused by name, which is the model's reading (log entry 6). -/
def Obligations.EncodeOfDecodeIsTheFrame : Prop :=
  ∀ (z : Sizes) (f : Nat),
    (f < 2 ^ (7 * z.W + z.KW + 5) → ∃ i, decode z f = .ok i ∧ i.wellFormed z = true ∧ encode z i = f) ∧
    (2 ^ (7 * z.W + z.KW + 5) ≤ f → decode z f = .error .frameTooWide)

/-- R55: the width of the frame and the place of each field in it. -/
def Obligations.FrameFieldsStandAtTheirBits : Prop :=
  ∀ (z : Sizes) (f : Nat), f < 2 ^ (7 * z.W + z.KW + 5) →
    ∃ i, decode z f = .ok i ∧
      i.opcode.toNat = f % 2 ^ 3 ∧
      i.operands.a = f / 2 ^ 3 % 2 ^ z.W ∧
      i.operands.b = f / 2 ^ (z.W + 3) % 2 ^ z.W ∧
      i.operands.p = f / 2 ^ (2 * z.W + 3) % 2 ^ z.W ∧
      i.operands.inf0 = f.testBit (3 * z.W + 3) ∧
      i.operands.x0 = f / 2 ^ (3 * z.W + 4) % 2 ^ z.W ∧
      i.operands.y0 = f / 2 ^ (4 * z.W + 4) % 2 ^ z.W ∧
      i.operands.inf1 = f.testBit (5 * z.W + 4) ∧
      i.operands.x1 = f / 2 ^ (5 * z.W + 5) % 2 ^ z.W ∧
      i.operands.y1 = f / 2 ^ (6 * z.W + 5) % 2 ^ z.W ∧
      i.operands.k = f / 2 ^ (7 * z.W + 5) % 2 ^ z.KW

/-- R56: the low three bits of a frame name its row of the opcode map. -/
def Obligations.OpcodeMapNamesEachRow : Prop :=
  ∀ (z : Sizes) (f : Nat), f < 2 ^ (7 * z.W + z.KW + 5) →
    ∃ o,
      (f % 8 = 0 → decode z f = .ok (.reserved0 o)) ∧
      (f % 8 = 1 → decode z f = .ok (.oncurve o)) ∧
      (f % 8 = 2 → decode z f = .ok (.padd o)) ∧
      (f % 8 = 3 → decode z f = .ok (.pdbl o)) ∧
      (f % 8 = 4 → decode z f = .ok (.smdaa o)) ∧
      (f % 8 = 5 → decode z f = .ok (.smlad o)) ∧
      (f % 8 = 6 → decode z f = .ok (.reserved6 o)) ∧
      (f % 8 = 7 → decode z f = .ok (.reserved7 o))

/-- Frames printed in 95_test_vectors.md (V1.14, V2.1, V3.8, V4.7, V5.28, V6.2, V6.3, V6.5) decode to the commands
printed beside them. -/
def Obligations.PrintedFramesDecodeAsPrinted : Prop :=
  decode tableSizes 0x00000000D100881011 = .ok (asmOncurve 2 2 17 (.aff 16 13)) ∧
  decode tableSizes 0x000060C01050881012 = .ok (asmPadd 2 2 17 (.aff 5 1) (.aff 6 3)) ∧
  decode tableSizes 0x0000000010508B1813 = .ok (asmPdbl 2 99 17 (.aff 5 1)) ∧
  decode tableSizes 0x01A000001050881014 = .ok (asmSmdaa 2 2 17 (.aff 5 1) 13) ∧
  decode tableSizes 0x01A121201050881015 = .ok (.smlad (lineOperands 2 2 17 (.aff 5 1) (.aff 9 9) 13)) ∧
  decode tableSizes 0x01A060C01050881010 = .ok (.reserved0 (lineOperands 2 2 17 (.aff 5 1) (.aff 6 3) 13)) ∧
  decode tableSizes 0x01A060C01050881016 = .ok (.reserved6 (lineOperands 2 2 17 (.aff 5 1) (.aff 6 3) 13)) ∧
  decode tableSizes 0x1FFFFFFFFFFFFFFFFF = .ok (.reserved7
    { a := 255, b := 255, p := 255, inf0 := true, x0 := 255, y0 := 255, inf1 := true, x1 := 255, y1 := 255, k := 255 })

/-! ## Reset and the handshake -/

/-- R37: what every register holds after reset. -/
def Obligations.ResetLeavesEveryRegisterAtItsValue : Prop :=
  State.reset.phase = .idle ∧ State.reset.op = 0 ∧
  State.reset.operands.a = 0 ∧ State.reset.operands.b = 0 ∧ State.reset.operands.p = 0 ∧
  State.reset.operands.inf0 = false ∧ State.reset.operands.x0 = 0 ∧ State.reset.operands.y0 = 0 ∧
  State.reset.operands.inf1 = false ∧ State.reset.operands.x1 = 0 ∧ State.reset.operands.y1 = 0 ∧
  State.reset.operands.k = 0 ∧
  State.reset.result.xr = 0 ∧ State.reset.result.yr = 0 ∧ State.reset.result.infr = false ∧
  State.reset.result.flag = false ∧ State.reset.result.status = 0 ∧
  State.reset.work.t0 = .inf ∧ State.reset.work.t1 = .inf ∧ State.reset.work.n = 0 ∧ State.reset.work.idx = 0 ∧
  State.reset.trace = [] ∧
  State.reset.outputs.busy = false ∧ State.reset.outputs.done = false

/-- R170, R171: an edge with `rst == 1` puts every register at its reset value, whatever the phase and whatever else the
ports carry; a command in flight leaves nothing, its trace included. -/
def Obligations.ResetEdgeClearsEverything : Prop :=
  ∀ (s : State) (e : Edge) (rest : List Edge), s.edges = e :: rest → e.rst = true →
    step s = .next { State.reset with edges := rest }

/-- R32: the accept transition, from `IDLE` and from `DONE`; at an edge that is no accept the ports carry nothing that has
an effect, and `start` while busy is ignored. -/
def Obligations.AcceptLatchesTheWholeCommand : Prop :=
  (∀ (s : State) (e : Edge) (rest : List Edge), s.edges = e :: rest → e.rst = false → e.start = true →
    (s.phase = .idle ∨ s.phase = .done) →
    step s = .next
      { phase := .busy, op := e.op, operands := e.operands,
        result := { status := 0, flag := false, infr := false, xr := 0, yr := 0 },
        work := { t0 := .inf, t1 := .inf, n := 0, idx := 0 }, trace := [], edges := rest }) ∧
  (∀ (s : State) (e : Edge) (rest : List Edge) (op : Opcode) (o : Operands), (s.phase = .busy ∨ e.start = false) →
    step { s with edges := { e with op := op, operands := o } :: rest } = step { s with edges := e :: rest }) ∧
  (∀ (s : State) (e : Edge) (rest : List Edge), s.phase = .busy →
    step { s with edges := { e with start := true } :: rest } = step { s with edges := { e with start := false } :: rest })

/-- R174, R176: while busy neither `start` nor any operand port has an effect. -/
def Obligations.BusyEdgeIgnoresStartAndOperands : Prop :=
  ∀ (s : State) (e : Edge) (rest : List Edge) (start : Bool) (op : Opcode) (o : Operands), s.phase = .busy →
    step { s with edges := { e with start := start, op := op, operands := o } :: rest } =
      step { s with edges := e :: rest }

/-- R35: in `IDLE` and `DONE` without `start` nothing changes. -/
def Obligations.IdleAndDoneHoldWithoutStart : Prop :=
  ∀ (s : State) (e : Edge) (rest : List Edge), s.edges = e :: rest → e.rst = false → e.start = false →
    (s.phase = .idle ∨ s.phase = .done) → step s = .next { s with edges := rest }

/-- A step runs the decoded command. A frame presented with `start` to a unit that is not busy puts its command in flight;
and an edge of a busy unit runs the command in flight: to its end, or by one unit of progress, or not visibly, as the pace
says (the model's, log entries 3 and 4). -/
def Obligations.StepRunsTheDecodedCommand : Prop :=
  (∀ (z : Sizes) (f : Nat) (i : Instr) (s : State) (pace : Pace) (rest : List Edge), decode z f = .ok i →
    (s.phase = .idle ∨ s.phase = .done) → s.edges = Edge.present z f pace :: rest →
    ∃ t, step s = .next t ∧ t.phase = .busy ∧ t.inFlight = i ∧ t.work = WorkRegs.cleared ∧ t.trace = [] ∧ t.edges = rest) ∧
  (∀ (s : State) (e : Edge) (rest : List Edge), s.phase = .busy → s.edges = e :: rest → e.rst = false →
    (e.pace = .finish → step s = exec s.inFlight { s with edges := rest }) ∧
    (e.pace = .iterate → step s = iterate s.inFlight { s with edges := rest }) ∧
    (e.pace = .wait → step s = .next { s with edges := rest }))

/-- The word that `withFetchWord` places is executed by the very next step, from every state (log entry 7). -/
def Obligations.FetchedWordRunsNext : Prop :=
  ∀ (s : State) (nbits w : Nat) (i : Instr), decodeTableWord nbits w = some i →
    ∃ t, step (s.withFetchWord nbits w) = exec i t ∧ t.phase = .busy ∧ t.op = i.opcode ∧ t.operands = i.operands ∧
      t.result = ResultRegs.cleared ∧ t.work = WorkRegs.cleared ∧ t.trace = [] ∧ t.edges = s.edges

/-- 93_implementation_defined.md part 2: nothing is stuck; every edge of every state has a next state. -/
def Obligations.EveryEdgeHasANextState : Prop := ∀ s : State, ∃ t, step s = .next t

/-- R22: the operand registers change only by accept and by reset. -/
def Obligations.OperandRegistersChangeOnlyByAcceptOrReset : Prop :=
  ∀ s t : State, step s = .next t → s.nextEdge.rst = false → (s.phase = .busy ∨ s.nextEdge.start = false) →
    t.op = s.op ∧ t.operands = s.operands

/-- R29: what is accepted leaves nothing of what came before: the state after accept is the same from any two states. -/
def Obligations.NothingIsCarriedIntoTheNextCommand : Prop :=
  ∀ (s s' : State) (e : Edge) (rest : List Edge), s.phase ≠ .busy → s'.phase ≠ .busy →
    s.edges = e :: rest → s'.edges = e :: rest → e.rst = false → e.start = true → step s = step s'

/-! ## Failures -/

/-- R145: a reserved opcode completes with `ILLEGAL_OP`, whatever the operands, with no sub-operation. -/
def Obligations.ReservedOpcodesFailWithIllegalOp : Prop :=
  ∀ (o : Operands) (s : State),
    exec (.reserved0 o) s = .next (s.doneWith (failureResult 6) []) ∧
    exec (.reserved6 o) s = .next (s.doneWith (failureResult 6) []) ∧
    exec (.reserved7 o) s = .next (s.doneWith (failureResult 6) [])

/-- R146: a modulus of 0 or 1 fails each of the five commands, whatever the other operands; any other modulus, 2 and
composite ones among them, is accepted. -/
def Obligations.SmallModulusFailsEveryCommand : Prop :=
  ∀ (o : Operands) (s : State),
    (o.p = 0 ∨ o.p = 1 →
      exec (.oncurve o) s = .next (s.doneWith (failureResult 5) []) ∧
      exec (.padd o) s = .next (s.doneWith (failureResult 5) []) ∧
      exec (.pdbl o) s = .next (s.doneWith (failureResult 5) []) ∧
      exec (.smdaa o) s = .next (s.doneWith (failureResult 5) []) ∧
      exec (.smlad o) s = .next (s.doneWith (failureResult 5) [])) ∧
    (2 ≤ o.p → ∀ (i : Instr) (t : State),
      (i = .oncurve o ∨ i = .padd o ∨ i = .pdbl o ∨ i = .smdaa o ∨ i = .smlad o) → exec i s = .next t →
      t.result.status ≠ 5)

/-- R147: a finite point that the command reads with a coordinate not below `p` fails it, once the modulus is legal. Nothing
else does: point operand 1 is tested by `PADD` only, an infinity operand's coordinates and `a`, `b`, `k` never. -/
def Obligations.OutOfRangePointFailsItsReaders : Prop :=
  ∀ (o : Operands) (s : State), 2 ≤ o.p →
    (o.inf0 = false → (o.p ≤ o.x0 ∨ o.p ≤ o.y0) →
      exec (.oncurve o) s = .next (s.doneWith (failureResult 4) []) ∧
      exec (.padd o) s = .next (s.doneWith (failureResult 4) []) ∧
      exec (.pdbl o) s = .next (s.doneWith (failureResult 4) []) ∧
      exec (.smdaa o) s = .next (s.doneWith (failureResult 4) []) ∧
      exec (.smlad o) s = .next (s.doneWith (failureResult 4) [])) ∧
    (o.inf1 = false → (o.p ≤ o.x1 ∨ o.p ≤ o.y1) → exec (.padd o) s = .next (s.doneWith (failureResult 4) [])) ∧
    ((o.inf0 = true ∨ (o.x0 < o.p ∧ o.y0 < o.p)) →
      (∀ (i : Instr) (t : State), (i = .oncurve o ∨ i = .pdbl o ∨ i = .smdaa o ∨ i = .smlad o) → exec i s = .next t →
        t.result.status ≠ 4) ∧
      ((o.inf1 = true ∨ (o.x1 < o.p ∧ o.y1 < o.p)) → ∀ t : State, exec (.padd o) s = .next t → t.result.status ≠ 4))

/-- Commands with a legal modulus and operands in range run past the prechecks: none of them ends with `BAD_MODULUS`,
`OPERAND_RANGE` or `ILLEGAL_OP`. -/
def Obligations.PrecheckedCommandsFailOnlyInTheirOperation : Prop :=
  ∀ (o : Operands) (s t : State) (i : Instr), 2 ≤ o.p → (pt0 o).inRange o.p = true → (pt1 o).inRange o.p = true →
    (i = .oncurve o ∨ i = .padd o ∨ i = .pdbl o ∨ i = .smdaa o ∨ i = .smlad o) → exec i s = .next t →
    t.result.status = 0 ∨ t.result.status = 1 ∨ t.result.status = 2 ∨ t.result.status = 3

/-! ## ONCURVE -/

/-- R76, R77: infinity is on every curve; a finite point in range is iff the congruence holds; the answer is a success
either way. -/
def Obligations.OncurveAnswersTheCongruence : Prop :=
  ∀ (o : Operands) (s : State), 2 ≤ o.p →
    (o.inf0 = true → exec (.oncurve o) s = .next (s.doneWith (boolResult true) [])) ∧
    (o.inf0 = false → o.x0 < o.p → o.y0 < o.p →
      (o.y0 ^ 2 ≡ o.x0 ^ 3 + o.a * o.x0 + o.b [MOD o.p] →
        exec (.oncurve o) s = .next (s.doneWith (boolResult true) [])) ∧
      (¬ o.y0 ^ 2 ≡ o.x0 ^ 3 + o.a * o.x0 + o.b [MOD o.p] →
        exec (.oncurve o) s = .next (s.doneWith (boolResult false) [])))

/-- On a non-singular curve over a field of odd prime order, `ONCURVE` answers true exactly for the points of the group
(the reference group is the model's choice, log entry 13). -/
def Obligations.OncurveDecidesGroupMembership : Prop :=
  ∀ (o : Operands) [Fact (Nat.Prime o.p)] (s : State), o.p ≠ 2 → NonSingular o.p o.a o.b → o.inf0 = false →
    o.x0 < o.p → o.y0 < o.p →
    ∃ v, exec (.oncurve o) s = .next (s.doneWith (boolResult v) []) ∧
      (v = true ↔ ∃ g, Represents o.p o.a o.b (.aff o.x0 o.y0) g)

/-! ## PADD -/

/-- R87: an infinity operand gives the other operand, copied. -/
def Obligations.PaddOfInfinityIsTheOtherOperand : Prop :=
  ∀ (o : Operands) (s : State), 2 ≤ o.p → (pt0 o).inRange o.p = true → (pt1 o).inRange o.p = true →
    (o.inf0 = true → o.inf1 = true → exec (.padd o) s = .next (s.doneWith (pointResult .inf) [.A])) ∧
    (o.inf0 = true → o.inf1 = false → exec (.padd o) s = .next (s.doneWith (pointResult (.aff o.x1 o.y1)) [.A])) ∧
    (o.inf0 = false → o.inf1 = true → exec (.padd o) s = .next (s.doneWith (pointResult (.aff o.x0 o.y0)) [.A]))

/-- R88, R89: inverse finite points give infinity; equal finite points fail, a point with `y = 0` among them. -/
def Obligations.PaddOfInverseAndOfEqualPoints : Prop :=
  ∀ (o : Operands) (s : State), 2 ≤ o.p → o.inf0 = false → o.inf1 = false → o.x0 < o.p → o.y0 < o.p → o.y1 < o.p →
    o.x1 = o.x0 →
    (o.y1 = (o.p - o.y0) % o.p → o.y1 ≠ o.y0 → exec (.padd o) s = .next (s.doneWith (pointResult .inf) [.A])) ∧
    (o.y1 = o.y0 → exec (.padd o) s = .next (s.doneWith (failureResult 1) [.A]))

/-- R90: the chord formula, over the integers modulo `p`, for the inverse `u` of `x1 - x0`. -/
def Obligations.PaddChordFormula : Prop :=
  ∀ (o : Operands) (s : State) (u lam : Int), 2 ≤ o.p → o.inf0 = false → o.inf1 = false →
    o.x0 < o.p → o.y0 < o.p → o.x1 < o.p → o.y1 < o.p →
    ¬ (o.x0 = o.x1 ∧ (o.y1 = o.y0 ∨ o.y1 = (o.p - o.y0) % o.p)) →
    u * (o.x1 - o.x0) ≡ 1 [ZMOD o.p] → lam = (o.y1 - o.y0) * u →
    ∃ xr yr : Nat, exec (.padd o) s = .next (s.doneWith (pointResult (.aff xr yr)) [.A]) ∧
      xr < o.p ∧ yr < o.p ∧
      (xr : Int) ≡ lam ^ 2 - o.x0 - o.x1 [ZMOD o.p] ∧ (yr : Int) ≡ lam * (o.x0 - xr) - o.y0 [ZMOD o.p]

/-- `NO_INVERSE` in the chord case: no inverse of `x1 - x0` modulo `p`. -/
def Obligations.PaddWithoutInverseFails : Prop :=
  ∀ (o : Operands) (s : State), 2 ≤ o.p → o.inf0 = false → o.inf1 = false →
    o.x0 < o.p → o.y0 < o.p → o.x1 < o.p → o.y1 < o.p →
    ¬ (o.x0 = o.x1 ∧ (o.y1 = o.y0 ∨ o.y1 = (o.p - o.y0) % o.p)) →
    Int.gcd ((o.x1 : Int) - o.x0) o.p ≠ 1 →
    exec (.padd o) s = .next (s.doneWith (failureResult 3) [.A])

/-- R92: addition commutes, outcomes and failures included. -/
def Obligations.PaddCommutes : Prop :=
  ∀ (o : Operands) (s : State),
    exec (.padd { o with inf0 := o.inf1, x0 := o.x1, y0 := o.y1, inf1 := o.inf0, x1 := o.x0, y1 := o.y0 }) s =
      exec (.padd o) s

/-- For valid inputs (R150), `PADD` of two group points that are not the same finite point is their group sum (the
reference group is the model's choice, log entry 13). -/
def Obligations.PaddIsGroupAddition : Prop :=
  ∀ (o : Operands) [Fact (Nat.Prime o.p)] (s : State) (g h : (curve o.p o.a o.b).Point),
    NonSingular o.p o.a o.b → Represents o.p o.a o.b (pt0 o) g → Represents o.p o.a o.b (pt1 o) h → (pt0 o = pt1 o → pt0 o = .inf) →
    ∃ R, exec (.padd o) s = .next (s.doneWith (pointResult R) [.A]) ∧ Represents o.p o.a o.b R (g + h)

/-! ## PDBL -/

/-- R102, R103: the double of infinity is infinity; a finite point with `y == 0` fails with `ZERO_Y`. -/
def Obligations.PdblOfInfinityAndOfZeroY : Prop :=
  ∀ (o : Operands) (s : State), 2 ≤ o.p →
    (o.inf0 = true → exec (.pdbl o) s = .next (s.doneWith (pointResult .inf) [.D])) ∧
    (o.inf0 = false → o.x0 < o.p → o.y0 = 0 → exec (.pdbl o) s = .next (s.doneWith (failureResult 2) [.D]))

/-- R104: the tangent formula, over the integers modulo `p`, for the inverse `u` of `2 y`. -/
def Obligations.PdblTangentFormula : Prop :=
  ∀ (o : Operands) (s : State) (u lam : Int), 2 ≤ o.p → o.inf0 = false → o.x0 < o.p → o.y0 < o.p → o.y0 ≠ 0 →
    u * (2 * o.y0) ≡ 1 [ZMOD o.p] → lam = (3 * o.x0 ^ 2 + o.a) * u →
    ∃ xr yr : Nat, exec (.pdbl o) s = .next (s.doneWith (pointResult (.aff xr yr)) [.D]) ∧
      xr < o.p ∧ yr < o.p ∧
      (xr : Int) ≡ lam ^ 2 - 2 * o.x0 [ZMOD o.p] ∧ (yr : Int) ≡ lam * (o.x0 - xr) - o.y0 [ZMOD o.p]

/-- R105: for `y != 0`, `PDBL` fails with `NO_INVERSE` exactly where `2 y` has no inverse modulo `p`, and yields a point
where it has one, for composite `p` too; it always fails so for `p = 2`, never for an odd prime. -/
def Obligations.PdblWithoutInverseFails : Prop :=
  ∀ (o : Operands) (s : State), 2 ≤ o.p → o.inf0 = false → o.x0 < o.p → o.y0 < o.p → o.y0 ≠ 0 →
    (Nat.gcd (2 * o.y0 % o.p) o.p ≠ 1 → exec (.pdbl o) s = .next (s.doneWith (failureResult 3) [.D])) ∧
    (Nat.gcd (2 * o.y0 % o.p) o.p = 1 → ∃ R, exec (.pdbl o) s = .next (s.doneWith (pointResult R) [.D])) ∧
    (o.p = 2 → exec (.pdbl o) s = .next (s.doneWith (failureResult 3) [.D])) ∧
    (Nat.Prime o.p → o.p ≠ 2 → ∃ R, exec (.pdbl o) s = .next (s.doneWith (pointResult R) [.D]))

/-- For valid inputs (R150) and odd `p`, `PDBL` of a group point is its double, or fails with `ZERO_Y`: that exactly for a
finite point that is its own negative (the reference group is the model's choice, log entry 13). -/
def Obligations.PdblIsGroupDoubling : Prop :=
  ∀ (o : Operands) [Fact (Nat.Prime o.p)] (s : State) (g : (curve o.p o.a o.b).Point), o.p ≠ 2 →
    NonSingular o.p o.a o.b → Represents o.p o.a o.b (pt0 o) g →
    (¬ (g ≠ 0 ∧ -g = g) →
      ∃ R, exec (.pdbl o) s = .next (s.doneWith (pointResult R) [.D]) ∧ Represents o.p o.a o.b R (g + g)) ∧
    (g ≠ 0 ∧ -g = g → exec (.pdbl o) s = .next (s.doneWith (failureResult 2) [.D]))

/-! ## SMDAA -/

/-- R111, R112, R114, R116: where none of the `bitlen(k)` iterations fails, the result is the accumulator after the last,
and the trace spells the bits of `k` from bit 0 upward. -/
def Obligations.SmdaaEndsAfterItsIterations : Prop :=
  ∀ (o : Operands) (s : State) (n : Nat) (Q T : Nat → Point), s.work = WorkRegs.cleared → 2 ≤ o.p →
    (pt0 o).inRange o.p = true → IsBitLength o.k n → DaaChain o Q T n →
    exec (.smdaa o) s = .next (s.doneWith (pointResult (Q n)) (daaLetters o Q T n))

/-- R118: the first sub-operation to fail ends the command with its failure, and its letter is the last of the trace; a
failed accumulation suppresses the doubling of its iteration. -/
def Obligations.SmdaaFailsWithItsFirstFailure : Prop :=
  ∀ (o : Operands) (s : State) (n j : Nat) (Q T : Nat → Point) (e : FailKind), s.work = WorkRegs.cleared → 2 ≤ o.p →
    (pt0 o).inRange o.p = true → IsBitLength o.k n → j < n → DaaChain o Q T j →
    (Accumulates o j (Q j) (T j) (.error e) →
      exec (.smdaa o) s = .next (s.doneWith (failureResult e.code) (daaLetters o Q T j ++ accLetters o Q T j))) ∧
    (∀ Q', Accumulates o j (Q j) (T j) (.ok Q') → pdbl o.a o.p (T j) = .error e →
      exec (.smdaa o) s = .next (s.doneWith (failureResult e.code) (daaLetters o Q T j ++ accLetters o Q T j ++ [.D])))

/-- R118: `SMDAA` never ends with `EQUAL_POINTS`, from any state of the working registers. -/
def Obligations.SmdaaNeverFailsWithEqualPoints : Prop :=
  ∀ (o : Operands) (s t : State), exec (.smdaa o) s = .next t → t.result.status ≠ 1

/-- R117: `k = 0` runs no iteration; an infinity operand gives infinity for every `k`, with the trace of `k`'s bits. -/
def Obligations.SmdaaDegenerateOperands : Prop :=
  ∀ (o : Operands) (s : State) (n : Nat), s.work = WorkRegs.cleared → 2 ≤ o.p →
    (o.k = 0 → (pt0 o).inRange o.p = true → exec (.smdaa o) s = .next (s.doneWith (pointResult .inf) [])) ∧
    (o.inf0 = true → IsBitLength o.k n → exec (.smdaa o) s = .next (s.doneWith (pointResult .inf)
      ((List.range n).flatMap fun i => if o.k.testBit i then [.A, .D] else [.D])))

/-- R116: a command that does not fail executes one doubling per bit and one accumulation per set bit of the scalar. -/
def Obligations.SmdaaTraceLengthCountsSetBits : Prop :=
  ∀ (o : Operands) (s t : State) (n : Nat), s.work = WorkRegs.cleared → IsBitLength o.k n →
    exec (.smdaa o) s = .next t → t.result.status = 0 →
    t.trace.length = s.trace.length + n + (List.range n).countP (fun i => o.k.testBit i)

/-- For valid inputs (R150) and odd `p`, `SMDAA` of a group point either shows its `k`-fold or fails with `ZERO_Y` (the
reference group is the model's choice, log entry 13). -/
def Obligations.SmdaaIsScalarMultipleOrZeroY : Prop :=
  ∀ (o : Operands) [Fact (Nat.Prime o.p)] (s : State) (g : (curve o.p o.a o.b).Point), o.p ≠ 2 →
    s.work = WorkRegs.cleared → NonSingular o.p o.a o.b → Represents o.p o.a o.b (pt0 o) g →
    ∃ ls, (∃ R, exec (.smdaa o) s = .next (s.doneWith (pointResult R) ls) ∧ Represents o.p o.a o.b R (o.k • g)) ∨
      exec (.smdaa o) s = .next (s.doneWith (failureResult 2) ls)

/-- For valid inputs (R150) and odd `p`, `SMDAA` of a point of odd order never fails and shows the point's `k`-fold (the
reference group is the model's choice, log entry 13). -/
def Obligations.SmdaaOfOddOrderPointIsItsMultiple : Prop :=
  ∀ (o : Operands) [Fact (Nat.Prime o.p)] (s : State) (g : (curve o.p o.a o.b).Point) (m : Nat), o.p ≠ 2 →
    s.work = WorkRegs.cleared → NonSingular o.p o.a o.b → Represents o.p o.a o.b (pt0 o) g → Odd m → m • g = 0 →
    ∃ R ls, exec (.smdaa o) s = .next (s.doneWith (pointResult R) ls) ∧ Represents o.p o.a o.b R (o.k • g)

/-! ## SMLAD -/

/-- R126, R127, R131: where none of the `bitlen(k)` iterations fails, the result is `R0` after the last, and the trace is
`(A D)^n`. -/
def Obligations.SmladEndsAfterItsIterations : Prop :=
  ∀ (o : Operands) (s : State) (n : Nat) (R0 R1 : Nat → Point), s.work = WorkRegs.cleared → 2 ≤ o.p →
    (pt0 o).inRange o.p = true → IsBitLength o.k n → LadderChain o n R0 R1 n →
    exec (.smlad o) s = .next (s.doneWith (pointResult (R0 n)) (ladderLetters n))

/-- R133: the first sub-operation to fail ends the command with its failure, and its letter is the last of the trace; in an
iteration the addition comes first. -/
def Obligations.SmladFailsWithItsFirstFailure : Prop :=
  ∀ (o : Operands) (s : State) (n j : Nat) (R0 R1 : Nat → Point) (e : FailKind), s.work = WorkRegs.cleared → 2 ≤ o.p →
    (pt0 o).inRange o.p = true → IsBitLength o.k n → j < n → LadderChain o n R0 R1 j →
    (padd o.p (R0 j) (R1 j) = .error e →
      exec (.smlad o) s = .next (s.doneWith (failureResult e.code) (ladderLetters j ++ [.A]))) ∧
    (∀ S, padd o.p (R0 j) (R1 j) = .ok S →
      pdbl o.a o.p (if o.k.testBit (n - 1 - j) then R1 j else R0 j) = .error e →
      exec (.smlad o) s = .next (s.doneWith (failureResult e.code) (ladderLetters j ++ [.A, .D])))

/-- R131: a ladder command that does not fail leaves the trace `(A D)^bitlen(k)`; so two of them have the same trace whenever
their scalars have the same bit length, whatever the scalars, the points and the curves. -/
def Obligations.SmladTraceRevealsOnlyTheBitLength : Prop :=
  ∀ (o o' : Operands) (s s' t t' : State) (n : Nat), s.work = WorkRegs.cleared → s'.work = WorkRegs.cleared →
    s.trace = [] → s'.trace = [] → IsBitLength o.k n → IsBitLength o'.k n →
    exec (.smlad o) s = .next t → exec (.smlad o') s' = .next t' → t.result.status = 0 → t'.result.status = 0 →
    t.trace = t'.trace ∧ t.trace = ladderLetters n ∧ t.trace.length = 2 * n

/-- R134: `k = 0` runs no iteration; an infinity operand gives infinity for every `k`, with the full trace. -/
def Obligations.SmladDegenerateOperands : Prop :=
  ∀ (o : Operands) (s : State) (n : Nat), s.work = WorkRegs.cleared → 2 ≤ o.p →
    (o.k = 0 → (pt0 o).inRange o.p = true → exec (.smlad o) s = .next (s.doneWith (pointResult .inf) [])) ∧
    (o.inf0 = true → IsBitLength o.k n →
      exec (.smlad o) s = .next (s.doneWith (pointResult .inf) (ladderLetters n)))

/-- R132: a ladder run over any number of leading zero bits has the same outcome; only the trace grows. -/
def Obligations.LadderPaddingChangesOnlyTheTrace : Prop :=
  ∀ (a p : Nat) (k : Nat) (P0 : Point) (n m : Nat), IsBitLength k n → n ≤ m →
    (ladLoop a p k m .inf P0).out = (ladLoop a p k n .inf P0).out ∧
    (ladLoop a p k m .inf P0).letters = ladderLetters (m - n) ++ (ladLoop a p k n .inf P0).letters

/-- For valid inputs (R150) and odd `p`, `SMLAD` of a group point either shows its `k`-fold or fails with `ZERO_Y` (the
reference group is the model's choice, log entry 13). -/
def Obligations.SmladIsScalarMultipleOrZeroY : Prop :=
  ∀ (o : Operands) [Fact (Nat.Prime o.p)] (s : State) (g : (curve o.p o.a o.b).Point), o.p ≠ 2 →
    s.work = WorkRegs.cleared → NonSingular o.p o.a o.b → Represents o.p o.a o.b (pt0 o) g →
    ∃ ls, (∃ R, exec (.smlad o) s = .next (s.doneWith (pointResult R) ls) ∧ Represents o.p o.a o.b R (o.k • g)) ∨
      exec (.smlad o) s = .next (s.doneWith (failureResult 2) ls)

/-- For valid inputs (R150) and odd `p`, `SMLAD` of a point of odd order never fails, shows the point's `k`-fold, and leaves the
trace `(A D)^bitlen(k)` (the reference group is the model's choice, log entry 13). -/
def Obligations.SmladOfOddOrderPointIsItsMultiple : Prop :=
  ∀ (o : Operands) [Fact (Nat.Prime o.p)] (s : State) (g : (curve o.p o.a o.b).Point) (m n : Nat), o.p ≠ 2 →
    s.work = WorkRegs.cleared → NonSingular o.p o.a o.b → Represents o.p o.a o.b (pt0 o) g → Odd m → m • g = 0 → IsBitLength o.k n →
    ∃ R, exec (.smlad o) s = .next (s.doneWith (pointResult R) (ladderLetters n)) ∧ Represents o.p o.a o.b R (o.k • g)

/-- The two scalar multiplications show the same result for valid inputs (R150) with odd `p` and a point of odd order (the
reference group is the model's choice, log entry 13). -/
def Obligations.SmdaaAndSmladAgreeOnOddOrder : Prop :=
  ∀ (o : Operands) [Fact (Nat.Prime o.p)] (s : State) (g : (curve o.p o.a o.b).Point) (m : Nat), o.p ≠ 2 →
    s.work = WorkRegs.cleared → NonSingular o.p o.a o.b → Represents o.p o.a o.b (pt0 o) g → Odd m → m • g = 0 →
    ∃ R ls ls', exec (.smdaa o) s = .next (s.doneWith (pointResult R) ls) ∧
      exec (.smlad o) s = .next (s.doneWith (pointResult R) ls')

/-! ## Every command -/

/-- The frame of every command: complete writes the result registers and the phase, clears the working registers and
extends the trace; `OP`, the operand registers and the queued edges stay (R34, R93). -/
def Obligations.EveryCommandKeepsItsOperands : Prop :=
  ∀ (i : Instr) (s : State), ∃ result letters, exec i s = .next (s.doneWith result letters)

/-- R28: only `ONCURVE` sets `FLAG`, only a command that yields a point sets `INFR`, and a set flag means success. -/
def Obligations.FlagsAreSetOnlyByTheirCommands : Prop :=
  ∀ (i : Instr) (s t : State), exec i s = .next t →
    (t.result.flag = true → t.result.status = 0 ∧ ∃ o, i = .oncurve o) ∧
    (t.result.infr = true → t.result.status = 0 ∧ ∃ o, i = .padd o ∨ i = .pdbl o ∨ i = .smdaa o ∨ i = .smlad o)

/-- R23: a field a command does not read has no effect on it. -/
def Obligations.UnreadFieldsHaveNoEffect : Prop :=
  ∀ (o : Operands) (a b : Nat) (inf1 : Bool) (x1 y1 : Nat) (k : Nat) (s : State),
    exec (.oncurve { o with inf1 := inf1, x1 := x1, y1 := y1, k := k }) s = exec (.oncurve o) s ∧
    exec (.padd { o with a := a, b := b, k := k }) s = exec (.padd o) s ∧
    exec (.pdbl { o with b := b, inf1 := inf1, x1 := x1, y1 := y1, k := k }) s = exec (.pdbl o) s ∧
    exec (.smdaa { o with b := b, inf1 := inf1, x1 := x1, y1 := y1 }) s = exec (.smdaa o) s ∧
    exec (.smlad { o with b := b, inf1 := inf1, x1 := x1, y1 := y1 }) s = exec (.smlad o) s

/-- R14: the coefficients act modulo `p`. -/
def Obligations.CoefficientsActModuloP : Prop :=
  ∀ (o : Operands) (s : State),
    exec (.oncurve { o with a := o.a % o.p, b := o.b % o.p }) s = exec (.oncurve o) s ∧
    exec (.pdbl { o with a := o.a % o.p, b := o.b % o.p }) s = exec (.pdbl o) s ∧
    exec (.smdaa { o with a := o.a % o.p, b := o.b % o.p }) s = exec (.smdaa o) s ∧
    exec (.smlad { o with a := o.a % o.p, b := o.b % o.p }) s = exec (.smlad o) s

/-- R59: the coordinate fields of an infinity operand have no effect. -/
def Obligations.InfinityOperandHidesItsCoordinates : Prop :=
  ∀ (o : Operands) (x y : Nat) (s : State),
    (o.inf0 = true →
      exec (.oncurve { o with x0 := x, y0 := y }) s = exec (.oncurve o) s ∧
      exec (.padd { o with x0 := x, y0 := y }) s = exec (.padd o) s ∧
      exec (.pdbl { o with x0 := x, y0 := y }) s = exec (.pdbl o) s ∧
      exec (.smdaa { o with x0 := x, y0 := y }) s = exec (.smdaa o) s ∧
      exec (.smlad { o with x0 := x, y0 := y }) s = exec (.smlad o) s) ∧
    (o.inf1 = true → exec (.padd { o with x1 := x, y1 := y }) s = exec (.padd o) s)

/-- R36: one unit of progress, then the rest of the execution, ends as the whole execution does (the two grains are the
model's, log entries 4 and 12). -/
def Obligations.IterationThenRestEqualsWhole : Prop :=
  ∀ s : State, s.phase = .busy →
    ∃ t, iterate s.inFlight s = .next t ∧
      ((t.phase = .busy ∧ exec t.inFlight t = exec s.inFlight s) ∨ (t.phase = .done ∧ exec s.inFlight s = .next t))

/-! ## Invariants and runs -/

/-- The output invariants of R183, the lifetime of the working registers (R26) and the ladder's trace (R131) survive every
edge. -/
def Obligations.EveryEdgeKeepsTheInvariant : Prop := ∀ s t : State, s.Inv → step s = .next t → t.Inv

/-- The invariant holds after reset. -/
def Obligations.ResetMeetsTheInvariant : Prop := State.reset.Inv

/-- Whatever the sizes, registers that fit their widths still do after every edge (R8, R17, R52). -/
def Obligations.EveryEdgeKeepsTheWidths : Prop :=
  ∀ (z : Sizes) (s t : State), s.Fits z → step s = .next t → t.Fits z

/-- Every register fits its width after reset. -/
def Obligations.ResetFitsEveryWidth : Prop := ∀ z : Sizes, State.reset.Fits z

/-- R181: a busy unit that is not reset is done once the execution has had one unit of progress per scalar bit and one
more, whatever the host drives meanwhile (the pace of an edge is the model's, log entry 3). -/
def Obligations.EveryCommandCompletes : Prop :=
  ∀ (s : State) (es rest : List Edge), s.Inv → s.phase = .busy → s.edges = es ++ rest → (∀ e ∈ es, e.rst = false) →
    bitlen s.operands.k + 1 ≤ (es.filter fun e => e.pace != .wait).length →
    ∃ j ≤ es.length, ∃ t : State, Sys2Proof.core.run j s = .next t ∧ t.phase = .done

/-- A command issued by the discipline of R184 ends, at whatever pace, as its execution from the reset registers does: it
is a function call that knows nothing of what came before (the pace of an edge is the model's, log entry 3). -/
def Obligations.DisciplinedCommandIsAFunctionCall : Prop :=
  ∀ (z : Sizes) (f : Nat) (i : Instr) (s : State) (pace : Pace) (mids : List Edge) (fin : Edge) (rest : List Edge),
    decode z f = .ok i → s.phase ≠ .busy → s.edges = Edge.present z f pace :: (mids ++ fin :: rest) →
    (∀ e ∈ mids, e.quiet) → fin.finishes →
    Sys2Proof.core.run (mids.length + 2) s =
      exec i { State.reset with phase := .busy, op := i.opcode, operands := i.operands, edges := rest }

/-- R140: the status codes. -/
def Obligations.StatusCodesOfTheFailureKinds : Prop :=
  FailKind.equalPoints.code = 1 ∧ FailKind.zeroY.code = 2 ∧ FailKind.noInverse.code = 3 ∧
  FailKind.operandRange.code = 4 ∧ FailKind.badModulus.code = 5 ∧ FailKind.illegalOp.code = 6

/-- R21, R66: `busy` and `done` say the phase, so they are never both set; and the place of each result port in the result
frame. -/
def Obligations.ResultFrameFields : Prop :=
  (∀ s : State,
    (s.outputs.busy = true ↔ s.phase = .busy) ∧ (s.outputs.done = true ↔ s.phase = .done) ∧
    ¬ (s.outputs.busy = true ∧ s.outputs.done = true)) ∧
  ∀ (z : Sizes) (s : State), s.Fits z →
    s.resFrame z < 2 ^ (2 * z.W + 5) ∧
    s.resFrame z % 2 ^ 3 = s.outputs.status.toNat ∧
    (s.resFrame z).testBit 3 = s.outputs.flag ∧
    (s.resFrame z).testBit 4 = s.outputs.infr ∧
    s.resFrame z / 2 ^ 5 % 2 ^ z.W = s.outputs.xr ∧
    s.resFrame z / 2 ^ (z.W + 5) % 2 ^ z.W = s.outputs.yr
end

