-- ==== Sys2Proof/Laws/Decode.lean ====
section
/-! SUPPORT. Fields of a number, and well-formedness as a proposition (spec/30_encoding.md R55, R62, R63). -/

namespace Sys2Proof

theorem field_lt (v lo w : Nat) : field v lo w < 2 ^ w := Nat.mod_lt _ (Nat.two_pow_pos w)

/-- The lowest field of a concatenation is what was put there. -/
theorem field_head {v w r : Nat} (h : v < 2 ^ w) : field (v + 2 ^ w * r) 0 w = v := by
  simp [field, Nat.add_mul_mod_self_left, Nat.mod_eq_of_lt h]

/-- Above the lowest field of a concatenation stands the rest. -/
theorem field_tail {v w r lo lo' width : Nat} (h : v < 2 ^ w) (hl : lo' = lo + w) :
    field (v + 2 ^ w * r) lo' width = field r lo width := by
  subst hl
  unfold field
  rw [pow_add, mul_comm (2 ^ lo), ← Nat.div_div_eq_div_mul, Nat.add_mul_div_left _ _ (Nat.two_pow_pos w),
    Nat.div_eq_of_lt h, zero_add]

/-- A number from bit `lo` upward is the field that starts there, then the number from that field's end upward. -/
theorem div_eq_field_add (v lo w : Nat) : v / 2 ^ lo = field v lo w + 2 ^ w * (v / 2 ^ (lo + w)) := by
  rw [field, pow_add, ← Nat.div_div_eq_div_mul, Nat.mod_add_div]

/-- A concatenation of two fields that fit fits the sum of their widths. -/
theorem concat_lt {v w r m : Nat} (h : v < 2 ^ w) (hr : r < 2 ^ m) : v + 2 ^ w * r < 2 ^ (m + w) := by
  rw [pow_add, mul_comm (2 ^ m)]
  have := Nat.mul_le_mul_left (2 ^ w) (Nat.succ_le_of_lt hr)
  rw [Nat.mul_succ] at this
  omega

/-- A command is well-formed exactly when every field fits its port. -/
theorem Instr.wellFormed_iff (z : Sizes) (i : Instr) : i.wellFormed z = true ↔ i.operands.Fits z := by
  unfold Instr.wellFormed Operands.misfit Operands.Fits
  repeat' split
  all_goals simp_all

/-- All the decoder can do. -/
theorem decode_cases (z : Sizes) (f : Nat) :
    (f < 2 ^ frameWidth z ∧ decode z f = .ok (Instr.ofFields (opcodeOfFrame f) (operandsOfFrame z f))) ∨
    (2 ^ frameWidth z ≤ f ∧ decode z f = .error .frameTooWide) := by
  unfold decode
  split
  · next h => exact .inl ⟨h, rfl⟩
  · next h => exact .inr ⟨Nat.le_of_not_lt h, rfl⟩

end Sys2Proof
end

