-- ==== Sys2Proof/Laws/PerInstr.lean ====
section
/-! SUPPORT. Facts about each row of the opcode map as syntax (spec/30_encoding.md R56, R57). -/

namespace Sys2Proof.Laws.FieldsRoundTrip

/-- The opcode map takes a row's own code and fields back to the row. -/
def Statement (i : Sys2Proof.Instr) : Prop := Sys2Proof.Instr.ofFields i.opcode i.operands = i

theorem oncurve (o : Sys2Proof.Operands) : Statement (.oncurve o) := rfl
theorem padd (o : Sys2Proof.Operands) : Statement (.padd o) := rfl
theorem pdbl (o : Sys2Proof.Operands) : Statement (.pdbl o) := rfl
theorem smdaa (o : Sys2Proof.Operands) : Statement (.smdaa o) := rfl
theorem smlad (o : Sys2Proof.Operands) : Statement (.smlad o) := rfl
theorem reserved0 (o : Sys2Proof.Operands) : Statement (.reserved0 o) := rfl
theorem reserved6 (o : Sys2Proof.Operands) : Statement (.reserved6 o) := rfl
theorem reserved7 (o : Sys2Proof.Operands) : Statement (.reserved7 o) := rfl

end Sys2Proof.Laws.FieldsRoundTrip

namespace Sys2Proof

/-- Every row is read back from its own code and fields. -/
theorem Instr.ofFields_opcode_operands (i : Instr) : Instr.ofFields i.opcode i.operands = i := by
  cases i <;> rfl

/-- The row of a code has that code: no code falls through to a neighbour (R57). -/
theorem Instr.opcode_ofFields (op : Opcode) (o : Operands) : (Instr.ofFields op o).opcode = op := by
  revert op
  intro op
  have h : op = 0 ∨ op = 1 ∨ op = 2 ∨ op = 3 ∨ op = 4 ∨ op = 5 ∨ op = 6 ∨ op = 7 := by
    revert op; decide
  rcases h with rfl | rfl | rfl | rfl | rfl | rfl | rfl | rfl <;> rfl

theorem Instr.operands_ofFields (op : Opcode) (o : Operands) : (Instr.ofFields op o).operands = o := by
  unfold Instr.ofFields
  repeat' split
  all_goals rfl

end Sys2Proof
end

