-- ==== Sys2Proof/Laws/State.lean ====
section
/-! SUPPORT. What each transition does to each field of the state. -/

namespace Sys2Proof.Machine

section accept
variable (op : Opcode) (o : Operands) (s : State)
@[simp] theorem State.accept_phase : (s.accept op o).phase = .busy := rfl
@[simp] theorem State.accept_op : (s.accept op o).op = op := rfl
@[simp] theorem State.accept_operands : (s.accept op o).operands = o := rfl
@[simp] theorem State.accept_result : (s.accept op o).result = ResultRegs.cleared := rfl
@[simp] theorem State.accept_work : (s.accept op o).work = WorkRegs.cleared := rfl
@[simp] theorem State.accept_trace : (s.accept op o).trace = [] := rfl
@[simp] theorem State.accept_edges : (s.accept op o).edges = s.edges := rfl
end accept

section complete
variable (ls : List SubOp) (out : CmdOutcome) (e : FailKind) (s : State)
@[simp] theorem State.complete_phase : (s.complete ls out).phase = .done := rfl
@[simp] theorem State.complete_op : (s.complete ls out).op = s.op := rfl
@[simp] theorem State.complete_operands : (s.complete ls out).operands = s.operands := rfl
@[simp] theorem State.complete_result : (s.complete ls out).result = out.result := rfl
@[simp] theorem State.complete_work : (s.complete ls out).work = WorkRegs.cleared := rfl
@[simp] theorem State.complete_trace : (s.complete ls out).trace = s.trace ++ ls := rfl
@[simp] theorem State.complete_edges : (s.complete ls out).edges = s.edges := rfl
/-- A failure is a completion with that failure (R141). -/
theorem State.fail_eq_complete : s.fail ls e = s.complete ls (.err e) := rfl
@[simp] theorem State.fail_phase : (s.fail ls e).phase = .done := rfl
@[simp] theorem State.fail_op : (s.fail ls e).op = s.op := rfl
@[simp] theorem State.fail_operands : (s.fail ls e).operands = s.operands := rfl
@[simp] theorem State.fail_result : (s.fail ls e).result = (CmdOutcome.err e).result := rfl
@[simp] theorem State.fail_work : (s.fail ls e).work = WorkRegs.cleared := rfl
@[simp] theorem State.fail_trace : (s.fail ls e).trace = s.trace ++ ls := rfl
@[simp] theorem State.fail_edges : (s.fail ls e).edges = s.edges := rfl
end complete

section completePoint
variable (r : Traced Point) (s : State)

/-- The outcome of an execution that ran to `r` (R19). -/
def Traced.outcome (r : Traced Point) : CmdOutcome :=
  match r.out with
  | .ok pt => .point pt
  | .error e => .err e

/-- Success or failure, the execution's end is one complete transition (R34, R141). -/
theorem State.completePoint_eq_complete : s.completePoint r = s.complete r.letters r.outcome := by
  obtain ⟨ls, out⟩ := r
  cases out <;> rfl

@[simp] theorem State.completePoint_phase : (s.completePoint r).phase = .done := by
  simp [State.completePoint_eq_complete]
@[simp] theorem State.completePoint_op : (s.completePoint r).op = s.op := by
  simp [State.completePoint_eq_complete]
@[simp] theorem State.completePoint_operands : (s.completePoint r).operands = s.operands := by
  simp [State.completePoint_eq_complete]
@[simp] theorem State.completePoint_work : (s.completePoint r).work = WorkRegs.cleared := by
  simp [State.completePoint_eq_complete]
@[simp] theorem State.completePoint_trace : (s.completePoint r).trace = s.trace ++ r.letters := by
  simp [State.completePoint_eq_complete]
@[simp] theorem State.completePoint_edges : (s.completePoint r).edges = s.edges := by
  simp [State.completePoint_eq_complete]
theorem State.completePoint_result : (s.completePoint r).result = r.outcome.result := by
  simp [State.completePoint_eq_complete]
end completePoint

section hold
variable (s : State)
@[simp] theorem State.hold_phase : s.hold.phase = s.phase := rfl
@[simp] theorem State.hold_op : s.hold.op = s.op := rfl
@[simp] theorem State.hold_operands : s.hold.operands = s.operands := rfl
@[simp] theorem State.hold_result : s.hold.result = s.result := rfl
@[simp] theorem State.hold_work : s.hold.work = s.work := rfl
@[simp] theorem State.hold_trace : s.hold.trace = s.trace := rfl
@[simp] theorem State.hold_edges : s.hold.edges = s.edges.tail := rfl
@[simp] theorem State.hold_inFlight : s.hold.inFlight = s.inFlight := rfl
@[simp] theorem State.resetEdge_eq : s.resetEdge = { State.reset with edges := s.edges.tail } := rfl
end hold

section afterIteration
variable (w : WorkRegs) (ls : List SubOp) (t0 t1 : Point) (s : State)
@[simp] theorem State.afterIteration_phase : (s.afterIteration w ls t0 t1).phase = s.phase := rfl
@[simp] theorem State.afterIteration_op : (s.afterIteration w ls t0 t1).op = s.op := rfl
@[simp] theorem State.afterIteration_operands : (s.afterIteration w ls t0 t1).operands = s.operands := rfl
@[simp] theorem State.afterIteration_result : (s.afterIteration w ls t0 t1).result = s.result := rfl
@[simp] theorem State.afterIteration_work :
    (s.afterIteration w ls t0 t1).work = { t0 := t0, t1 := t1, n := w.n, idx := w.idx + 1 } := rfl
@[simp] theorem State.afterIteration_trace : (s.afterIteration w ls t0 t1).trace = s.trace ++ ls := rfl
@[simp] theorem State.afterIteration_edges : (s.afterIteration w ls t0 t1).edges = s.edges := rfl
end afterIteration

section nextEdge
variable (s : State) (e : Edge) (rest : List Edge)
theorem State.nextEdge_nil (h : s.edges = []) : s.nextEdge = Edge.idle := by simp [State.nextEdge, h]
theorem State.nextEdge_cons (h : s.edges = e :: rest) : s.nextEdge = e := by simp [State.nextEdge, h]
end nextEdge

section outputs
variable (s : State)
@[simp] theorem State.outputs_busy : s.outputs.busy = (s.phase == .busy) := rfl
@[simp] theorem State.outputs_done : s.outputs.done = (s.phase == .done) := rfl
@[simp] theorem State.outputs_status : s.outputs.status = s.result.status := rfl
@[simp] theorem State.outputs_flag : s.outputs.flag = s.result.flag := rfl
@[simp] theorem State.outputs_infr : s.outputs.infr = s.result.infr := rfl
@[simp] theorem State.outputs_xr : s.outputs.xr = s.result.xr := rfl
@[simp] theorem State.outputs_yr : s.outputs.yr = s.result.yr := rfl
end outputs

section load
variable (P0 : Point) (k : Nat) (w : WorkRegs)
@[simp] theorem WorkRegs.load_cleared :
    WorkRegs.cleared.load P0 k = { t0 := .inf, t1 := P0, n := bitlen k, idx := 0 } := rfl
theorem WorkRegs.load_of_zero (h : w.n = 0) : w.load P0 k = { t0 := .inf, t1 := P0, n := bitlen k, idx := 0 } := by
  simp [WorkRegs.load, h]
theorem WorkRegs.load_of_ne (h : w.n ≠ 0) : w.load P0 k = w := by simp [WorkRegs.load, h]
end load

end Sys2Proof.Machine
end

