-- ==== Sys2Proof/Laws/Ops.lean ====
section
/-! SUPPORT. What the field primitives, the traced results and the prechecks do (spec/00_scope.md R10 to R15;
spec/60_exceptions.md R144). -/

namespace Sys2Proof.Machine

/-! ## Field primitives -/

section primitives
variable {p : Nat} (u v : Nat)

theorem addm_lt (hp : 0 < p) : addm p u v < p := Nat.mod_lt _ hp
theorem mulm_lt (hp : 0 < p) : mulm p u v < p := Nat.mod_lt _ hp
theorem subm_lt (hp : 0 < p) : subm p u v < p := by
  have := Int.emod_nonneg ((u : Int) - v) (b := (p : Int)) (by omega)
  have := Int.emod_lt_of_pos ((u : Int) - v) (b := (p : Int)) (by omega)
  unfold subm
  omega

theorem addm_cast : ((addm p u v : Nat) : ZMod p) = u + v := by simp [addm]
theorem mulm_cast : ((mulm p u v : Nat) : ZMod p) = u * v := by simp [mulm]
theorem subm_intCast (hp : 0 < p) : ((subm p u v : Nat) : Int) = ((u : Int) - v) % p := by
  have := Int.emod_nonneg ((u : Int) - v) (b := (p : Int)) (by omega)
  unfold subm
  omega
theorem subm_cast (hp : 0 < p) : ((subm p u v : Nat) : ZMod p) = (u : ZMod p) - v := by
  rw [← Int.cast_natCast, subm_intCast u v hp]
  simp

end primitives

/-- R15. -/
theorem bitlen_zero : bitlen 0 = 0 := rfl
theorem bitlen_pos {k : Nat} (hk : k ≠ 0) : 0 < bitlen k := by simp [bitlen, hk]
theorem lt_two_pow_bitlen (k : Nat) : k < 2 ^ bitlen k := by
  by_cases hk : k = 0
  · simp [hk, bitlen]
  · simpa [bitlen, hk] using Nat.lt_log2_self (n := k)
theorem two_pow_le_of_bitlen {k : Nat} (hk : k ≠ 0) : 2 ^ (bitlen k - 1) ≤ k := by
  simpa [bitlen, hk] using Nat.log2_self_le hk
theorem bitlen_le_iff {k m : Nat} : bitlen k ≤ m ↔ k < 2 ^ m := by
  constructor
  · exact fun h => (lt_two_pow_bitlen k).trans_le (Nat.pow_le_pow_right (by decide) h)
  · intro h
    by_cases hk : k = 0
    · simp [hk, bitlen]
    · have := Nat.pow_lt_pow_iff_right (a := 2) (by decide) |>.1 ((two_pow_le_of_bitlen hk).trans_lt h)
      have := bitlen_pos hk
      omega

/-- The extended Euclid loop ends with a coefficient that takes `v` to the greatest common divisor, given that both
remainders are multiples of `v` by their coefficients. -/
theorem euclid_spec (p v : Nat) : ∀ (fuel r0 r1 : Nat) (t0 t1 : Int), r1 ≤ fuel →
    (t0 * v : Int) ≡ r0 [ZMOD p] → (t1 * v : Int) ≡ r1 [ZMOD p] →
    (euclid fuel r0 r1 t0 t1 * v : Int) ≡ Nat.gcd r0 r1 [ZMOD p] := by
  intro fuel
  induction fuel with
  | zero =>
    intro r0 r1 t0 t1 hf h0 _
    obtain rfl : r1 = 0 := by omega
    simpa [euclid] using h0
  | succ fuel ih =>
    intro r0 r1 t0 t1 hf h0 h1
    unfold euclid
    split
    · next h => subst h; simpa using h0
    · next h =>
      have hlt : r0 % r1 < r1 := Nat.mod_lt _ (Nat.pos_of_ne_zero h)
      rw [Nat.gcd_comm, Nat.gcd_rec, Nat.gcd_comm]
      refine ih r1 (r0 % r1) _ _ (by omega) h1 ?_
      have hr : ((r0 % r1 : Nat) : Int) = r0 - (r0 / r1 : Nat) * r1 := by
        have hd := congrArg (Nat.cast (R := Int)) (Nat.mod_add_div r0 r1)
        push_cast at hd ⊢
        linarith
      rw [hr, sub_mul, mul_assoc]
      exact h0.sub (Int.ModEq.rfl.mul h1)

/-- R13: where `invm` answers, it answers the one inverse of `v` below `p`. -/
theorem invm_eq_ok_iff {p v u : Nat} (hp : 2 ≤ p) : invm p v = .ok u ↔ u < p ∧ u * v % p = 1 := by
  have hone : 1 % p = 1 := Nat.mod_eq_of_lt (by omega)
  have key : ∀ w : Nat, w * v % p = 1 → Nat.gcd (v % p) p = 1 := by
    intro w hw
    have hw' : Nat.Coprime p (w * v) := by
      rw [Nat.Coprime, Nat.gcd_rec, hw, Nat.gcd_one_left]
    rw [← Nat.gcd_rec]
    exact (Nat.coprime_mul_iff_right.1 hw').2
  have val : Nat.gcd (v % p) p = 1 →
      (euclid p p (v % p) 0 1 % (p : Int)).toNat * v % p = 1 ∧ (euclid p p (v % p) 0 1 % (p : Int)).toNat < p := by
    intro hg
    have hs := euclid_spec p (v % p) p p (v % p) 0 1 (Nat.mod_lt _ (by omega)).le
      (by simp [Int.ModEq]) (by simp)
    rw [Nat.gcd_comm, hg] at hs
    set t := euclid p p (v % p) 0 1
    have h0 := Int.emod_nonneg t (b := (p : Int)) (by omega)
    have h1 := Int.emod_lt_of_pos t (b := (p : Int)) (by omega)
    refine ⟨?_, by omega⟩
    have : (((t % (p : Int)).toNat * v : Nat) : Int) ≡ 1 [ZMOD p] := by
      push_cast
      rw [Int.toNat_of_nonneg h0]
      refine Int.ModEq.trans ?_ hs
      exact ((Int.mod_modEq t p).mul (by push_cast; exact (Int.mod_modEq v p).symm))
    have := (Int.natCast_modEq_iff (a := (t % (p : Int)).toNat * v) (b := 1) (n := p)).1 (by simpa using this)
    simpa [Nat.ModEq, hone] using this
  unfold invm
  constructor
  · split
    · next hg =>
      rintro ⟨rfl⟩
      exact ⟨(val hg).2, (val hg).1⟩
    · simp
  · rintro ⟨hu, huv⟩
    have hg := key u huv
    rw [if_pos hg]
    obtain ⟨h1, h2⟩ := val hg
    congr 1
    have hcop : Nat.gcd p v = 1 := by rw [Nat.gcd_rec]; exact hg
    have : (euclid p p (v % p) 0 1 % (p : Int)).toNat * v ≡ u * v [MOD p] := by
      unfold Nat.ModEq; rw [h1, huv]
    have := Nat.ModEq.cancel_right_of_coprime hcop this
    rw [Nat.ModEq, Nat.mod_eq_of_lt h2, Nat.mod_eq_of_lt hu] at this
    exact this

/-- R13: `invm` fails exactly where no inverse exists. -/
theorem invm_eq_error_iff {p v : Nat} {e : FailKind} :
    invm p v = .error e ↔ e = .noInverse ∧ Nat.gcd (v % p) p ≠ 1 := by
  unfold invm
  split <;> simp_all [eq_comm]

/-! ## Traced results -/

@[simp] theorem Traced.pure_letters {α : Type} (v : α) : (Traced.pure v).letters = [] := rfl
@[simp] theorem Traced.pure_out {α : Type} (v : α) : (Traced.pure v).out = .ok v := rfl

theorem Traced.bind_ok {α β : Type} {r : Traced α} {f : α → Traced β} {v : α} (h : r.out = .ok v) :
    r.bind f = { letters := r.letters ++ (f v).letters, out := (f v).out } := by
  simp [Traced.bind, h]
theorem Traced.bind_error {α β : Type} {r : Traced α} {f : α → Traced β} {e : FailKind} (h : r.out = .error e) :
    r.bind f = { letters := r.letters, out := .error e } := by
  simp [Traced.bind, h]

/-- A sequence succeeds only if each part does. -/
theorem Traced.bind_out_ok {α β : Type} {r : Traced α} {f : α → Traced β} {b : β} :
    (r.bind f).out = .ok b ↔ ∃ v, r.out = .ok v ∧ (f v).out = .ok b := by
  cases h : r.out <;> simp [Traced.bind, h]

/-- A sequence fails with the failure of the first part that fails. -/
theorem Traced.bind_out_error {α β : Type} {r : Traced α} {f : α → Traced β} {e : FailKind} :
    (r.bind f).out = .error e ↔ r.out = .error e ∨ ∃ v, r.out = .ok v ∧ (f v).out = .error e := by
  cases h : r.out <;> simp [Traced.bind, h]

/-! ## Prechecks -/

/-- The prechecks pass exactly for a modulus of at least 2 and points in range (R146, R147). -/
theorem precheck_eq_none_iff {p : Nat} {reads : List Point} :
    precheck p reads = none ↔ 2 ≤ p ∧ ∀ pt ∈ reads, pt.inRange p = true := by
  unfold precheck
  by_cases hp : p < 2
  · simp [hp]
  · by_cases hr : reads.all (Point.inRange p) = true
    · simpa [hp, hr] using ⟨Nat.le_of_not_lt hp, List.all_eq_true.1 hr⟩
    · simp only [hp, hr, if_false]
      simpa [Nat.le_of_not_lt hp] using hr

/-- The modulus is checked before the operands (R144). -/
theorem precheck_badModulus {p : Nat} (reads : List Point) (hp : p < 2) : precheck p reads = some .badModulus := by
  simp [precheck, hp]

theorem precheck_operandRange {p : Nat} {reads : List Point} (hp : 2 ≤ p) {pt : Point} (hm : pt ∈ reads)
    (hr : pt.inRange p = false) : precheck p reads = some .operandRange := by
  have : ¬ (reads.all (Point.inRange p) = true) := by
    simp only [List.all_eq_true, not_forall]
    exact ⟨pt, hm, by simp [hr]⟩
  simp [precheck, this, Nat.not_lt.2 hp]

/-- All a prechecked execution can do: end with the precheck's failure, or run its body with the prechecks passed. -/
theorem prechecked_cases (p : Nat) (reads : List Point) (s : State) (body : StepOutcome) :
    (∃ e, precheck p reads = some e ∧ prechecked p reads s body = .next (s.fail [] e)) ∨
    ((2 ≤ p ∧ ∀ pt ∈ reads, pt.inRange p = true) ∧ prechecked p reads s body = body) := by
  unfold prechecked
  cases h : precheck p reads with
  | none => exact .inr ⟨precheck_eq_none_iff.1 h, rfl⟩
  | some e => exact .inl ⟨e, rfl, rfl⟩

theorem prechecked_of_pass {p : Nat} {reads : List Point} (s : State) (body : StepOutcome) (hp : 2 ≤ p)
    (h : ∀ pt ∈ reads, pt.inRange p = true) : prechecked p reads s body = body := by
  simp [prechecked, precheck_eq_none_iff.2 ⟨hp, h⟩]

/-- A result point is encoded canonically and decodes to itself (R60). -/
theorem point_encPoint (pt : Point) : point (encPoint pt).1 (encPoint pt).2.1 (encPoint pt).2.2 = pt := by
  cases pt <;> rfl

end Sys2Proof.Machine
end

