-- ==== Sys2Proof/Laws/Points.lean ====
section
/-! SUPPORT. What point addition, point doubling and the accumulation can answer (spec/42_point_add.md R86, R94;
spec/43_point_double.md R101, R107; spec/44_scalar_mul_daa.md R114, R118). -/

namespace Sys2Proof.Machine

theorem Point.inRange_aff {p x y : Nat} : (Point.aff x y).inRange p = true ↔ x < p ∧ y < p := by
  simp [Point.inRange]

@[simp] theorem Point.inRange_inf (p : Nat) : Point.inf.inRange p = true := rfl

/-- Everything the chord formula can do: no inverse of `x1 - x0` (R91), or R90's point for that inverse. -/
theorem chord_cases (p x0 y0 x1 y1 : Nat) :
    (∃ e, invm p (subm p x1 x0) = .error e ∧ chord p x0 y0 x1 y1 = .error .noInverse) ∨
    (∃ u lam xr yr, invm p (subm p x1 x0) = .ok u ∧ lam = mulm p (subm p y1 y0) u ∧
      xr = subm p (subm p (mulm p lam lam) x0) x1 ∧ yr = subm p (mulm p lam (subm p x0 xr)) y0 ∧
      chord p x0 y0 x1 y1 = .ok (.aff xr yr)) := by
  unfold chord
  cases h : invm p (subm p x1 x0) with
  | ok u => exact .inr ⟨u, _, _, _, rfl, rfl, rfl, rfl, rfl⟩
  | error e =>
    obtain ⟨rfl, -⟩ := invm_eq_error_iff.1 h
    exact .inl ⟨_, rfl, rfl⟩

/-- Everything the tangent formula can do: no inverse of `2 y` (R105), or R104's point for that inverse. -/
theorem tangent_cases (a p x y : Nat) :
    (∃ e, invm p (mulm p 2 y) = .error e ∧ tangent a p x y = .error .noInverse) ∨
    (∃ u lam xr yr, invm p (mulm p 2 y) = .ok u ∧ lam = mulm p (addm p (mulm p 3 (mulm p x x)) a) u ∧
      xr = subm p (mulm p lam lam) (mulm p 2 x) ∧ yr = subm p (mulm p lam (subm p x xr)) y ∧
      tangent a p x y = .ok (.aff xr yr)) := by
  unfold tangent
  cases h : invm p (mulm p 2 y) with
  | ok u => exact .inr ⟨u, _, _, _, rfl, rfl, rfl, rfl, rfl⟩
  | error e =>
    obtain ⟨rfl, -⟩ := invm_eq_error_iff.1 h
    exact .inl ⟨_, rfl, rfl⟩

/-- A sum of points in range is in range, whichever case gave it (R87, R90). -/
theorem padd_inRange {p : Nat} (hp : 0 < p) {P0 P1 R : Point} (h0 : P0.inRange p = true) (h1 : P1.inRange p = true)
    (h : padd p P0 P1 = .ok R) : R.inRange p = true := by
  unfold padd at h
  split at h
  · cases h; exact h1
  · cases h; exact h0
  · split at h
    · cases h; rfl
    · split at h
      · cases h
      · next x0 y0 x1 y1 _ _ =>
        obtain ⟨e, -, he⟩ | ⟨u, lam, xr, yr, -, -, rfl, rfl, hr⟩ := chord_cases p x0 y0 x1 y1
        · rw [he] at h; cases h
        · rw [hr] at h
          cases h
          exact Point.inRange_aff.2 ⟨subm_lt _ _ hp, subm_lt _ _ hp⟩

/-- A double is in range, whatever was doubled (R104). -/
theorem pdbl_inRange {a p : Nat} (hp : 0 < p) {P0 R : Point} (h : pdbl a p P0 = .ok R) : R.inRange p = true := by
  unfold pdbl at h
  split at h
  · cases h; rfl
  · next x y =>
    split at h
    · cases h
    · obtain ⟨e, -, he⟩ | ⟨u, lam, xr, yr, -, -, rfl, rfl, hr⟩ := tangent_cases a p x y
      · rw [he] at h; cases h
      · rw [hr] at h
        cases h
        exact Point.inRange_aff.2 ⟨subm_lt _ _ hp, subm_lt _ _ hp⟩

/-- How an addition fails (R94): equal finite points, or no inverse. -/
theorem padd_error {p : Nat} {P0 P1 : Point} {e : FailKind} (h : padd p P0 P1 = .error e) :
    (e = .equalPoints ∧ P0 = P1 ∧ P0 ≠ .inf) ∨ e = .noInverse := by
  unfold padd at h
  split at h
  · cases h
  · cases h
  · split at h
    · cases h
    · split at h
      · next heq => cases h; exact .inl ⟨rfl, by rw [heq.1, heq.2], by simp⟩
      · next x0 y0 x1 y1 _ _ =>
        obtain ⟨e, -, he⟩ | ⟨u, lam, xr, yr, -, -, -, -, hr⟩ := chord_cases p x0 y0 x1 y1
        · rw [he] at h; cases h; exact .inr rfl
        · rw [hr] at h; cases h

/-- How a doubling fails (R107): `y = 0`, or no inverse. -/
theorem pdbl_error {a p : Nat} {P0 : Point} {e : FailKind} (h : pdbl a p P0 = .error e) :
    e = .zeroY ∨ e = .noInverse := by
  unfold pdbl at h
  split at h
  · cases h
  · next x y =>
    split at h
    · cases h; exact .inl rfl
    · obtain ⟨e, -, he⟩ | ⟨u, lam, xr, yr, -, -, -, -, hr⟩ := tangent_cases a p x y
      · rw [he] at h; cases h; exact .inr rfl
      · rw [hr] at h; cases h

@[simp] theorem addStep_letters (p : Nat) (P0 P1 : Point) : (addStep p P0 P1).letters = [.A] := rfl
@[simp] theorem addStep_out (p : Nat) (P0 P1 : Point) : (addStep p P0 P1).out = padd p P0 P1 := rfl
@[simp] theorem doubleStep_letters (a p : Nat) (P0 : Point) : (doubleStep a p P0).letters = [.D] := rfl
@[simp] theorem doubleStep_out (a p : Nat) (P0 : Point) : (doubleStep a p P0).out = pdbl a p P0 := rfl

/-- The accumulation is one sub-operation: a doubling of two equal finite points, an addition otherwise (R114). -/
theorem acc_cases (a p : Nat) (Q T : Point) :
    (Q = T ∧ Q ≠ .inf ∧ acc a p Q T = doubleStep a p Q) ∨
    (¬ (Q = T ∧ Q ≠ .inf) ∧ acc a p Q T = addStep p Q T) := by
  unfold acc
  split
  · next h => exact .inl ⟨h.2.2, h.1, rfl⟩
  · next h =>
    refine .inr ⟨?_, rfl⟩
    rintro ⟨rfl, hne⟩
    exact h ⟨hne, hne, rfl⟩

end Sys2Proof.Machine
end

