-- ==== Sys2Proof/Laws/Step.lean ====
section
/-! SUPPORT. Everything an execution, one unit of its progress, and one edge can do. -/

namespace Sys2Proof.Machine

/-- A prechecked execution that ends in a complete transition does so whether or not the prechecks pass. -/
theorem prechecked_complete (p : Nat) (reads : List Point) (s : State) (ls : List SubOp) (out : CmdOutcome) :
    ∃ ls' out', prechecked p reads s (.next (s.complete ls out)) = .next (s.complete ls' out') := by
  obtain ⟨e, -, h⟩ | ⟨-, h⟩ := prechecked_cases p reads s (.next (s.complete ls out))
  · exact ⟨[], .err e, h⟩
  · exact ⟨ls, out, h⟩

/-- `exec` is one complete transition, for every command and every state (R33, R34, R143). -/
theorem exec_eq_complete (i : Instr) (s : State) : ∃ ls out, exec i s = .next (s.complete ls out) := by
  cases i with
  | oncurve o => exact prechecked_complete _ _ _ _ _
  | padd o => simpa only [exec, execPadd, State.completePoint_eq_complete] using prechecked_complete _ _ _ _ _
  | pdbl o => simpa only [exec, execPdbl, State.completePoint_eq_complete] using prechecked_complete _ _ _ _ _
  | smdaa o => simpa only [exec, execSmdaa, State.completePoint_eq_complete] using prechecked_complete _ _ _ _ _
  | smlad o => simpa only [exec, execSmlad, State.completePoint_eq_complete] using prechecked_complete _ _ _ _ _
  | reserved0 o => exact ⟨[], .err .illegalOp, rfl⟩
  | reserved6 o => exact ⟨[], .err .illegalOp, rfl⟩
  | reserved7 o => exact ⟨[], .err .illegalOp, rfl⟩

/-- After a loop step: the next pair of points, or the step's failure. -/
theorem progress_cases (w : WorkRegs) (r : Traced (Point × Point)) (s : State) :
    (∃ R, r.out = .ok R ∧ s.progress w r = s.afterIteration w r.letters R.1 R.2) ∨
    (∃ e, r.out = .error e ∧ s.progress w r = s.fail r.letters e) := by
  obtain ⟨ls, out⟩ := r
  cases out with
  | ok R => exact .inl ⟨R, rfl, rfl⟩
  | error e => exact .inr ⟨e, rfl, rfl⟩

/-- One unit of `SMDAA`'s progress: a failed precheck, the end, the next iteration, or that iteration's failure. -/
theorem iterateSmdaa_cases (o : Operands) (s : State) :
    let w := s.work.load (pt0 o) o.k
    let r := daaStep o.a o.p w.t0 w.t1 (bit o.k w.idx)
    (∃ e, precheck o.p [pt0 o] = some e ∧ iterateSmdaa o s = .next (s.fail [] e)) ∨
    ((2 ≤ o.p ∧ (pt0 o).inRange o.p = true) ∧
      ((w.n ≤ w.idx ∧ iterateSmdaa o s = .next (s.completePoint (Traced.pure w.t0))) ∨
      (w.idx < w.n ∧ ∃ R, r.out = .ok R ∧ iterateSmdaa o s = .next (s.afterIteration w r.letters R.1 R.2)) ∨
      (w.idx < w.n ∧ ∃ e, r.out = .error e ∧ iterateSmdaa o s = .next (s.fail r.letters e)))) := by
  intro w r
  obtain ⟨e, he, h⟩ | ⟨hp, h⟩ := prechecked_cases o.p [pt0 o] s
    (.next (if w.n ≤ w.idx then s.completePoint (Traced.pure w.t0) else s.progress w r))
  · exact .inl ⟨e, he, h⟩
  · refine .inr ⟨⟨hp.1, hp.2 _ (by simp)⟩, ?_⟩
    by_cases hn : w.n ≤ w.idx
    · exact .inl ⟨hn, h.trans (by rw [if_pos hn])⟩
    · have h' : iterateSmdaa o s = .next (s.progress w r) := h.trans (by rw [if_neg hn])
      obtain ⟨R, hR, hs⟩ | ⟨e, he, hs⟩ := progress_cases w r s
      · exact .inr (.inl ⟨Nat.lt_of_not_le hn, R, hR, h'.trans (by rw [hs])⟩)
      · exact .inr (.inr ⟨Nat.lt_of_not_le hn, e, he, h'.trans (by rw [hs])⟩)

/-- One unit of `SMLAD`'s progress: a failed precheck, the end, the next iteration, or that iteration's failure. -/
theorem iterateSmlad_cases (o : Operands) (s : State) :
    let w := s.work.load (pt0 o) o.k
    let r := ladStep o.a o.p w.t0 w.t1 (bit o.k (w.n - w.idx - 1))
    (∃ e, precheck o.p [pt0 o] = some e ∧ iterateSmlad o s = .next (s.fail [] e)) ∨
    ((2 ≤ o.p ∧ (pt0 o).inRange o.p = true) ∧
      ((w.n ≤ w.idx ∧ iterateSmlad o s = .next (s.completePoint (Traced.pure w.t0))) ∨
      (w.idx < w.n ∧ ∃ R, r.out = .ok R ∧ iterateSmlad o s = .next (s.afterIteration w r.letters R.1 R.2)) ∨
      (w.idx < w.n ∧ ∃ e, r.out = .error e ∧ iterateSmlad o s = .next (s.fail r.letters e)))) := by
  intro w r
  obtain ⟨e, he, h⟩ | ⟨hp, h⟩ := prechecked_cases o.p [pt0 o] s
    (.next (if w.n ≤ w.idx then s.completePoint (Traced.pure w.t0) else s.progress w r))
  · exact .inl ⟨e, he, h⟩
  · refine .inr ⟨⟨hp.1, hp.2 _ (by simp)⟩, ?_⟩
    by_cases hn : w.n ≤ w.idx
    · exact .inl ⟨hn, h.trans (by rw [if_pos hn])⟩
    · have h' : iterateSmlad o s = .next (s.progress w r) := h.trans (by rw [if_neg hn])
      obtain ⟨R, hR, hs⟩ | ⟨e, he, hs⟩ := progress_cases w r s
      · exact .inr (.inl ⟨Nat.lt_of_not_le hn, R, hR, h'.trans (by rw [hs])⟩)
      · exact .inr (.inr ⟨Nat.lt_of_not_le hn, e, he, h'.trans (by rw [hs])⟩)

/-- Everything one edge can do (R32, R33, R35, R170): reset, execute by some pace, accept, hold. -/
theorem step_cases (s : State) :
    (s.nextEdge.rst = true ∧ step s = .next s.resetEdge) ∨
    (s.nextEdge.rst = false ∧ s.phase = .busy ∧ step s = execute s.nextEdge.pace s.hold) ∨
    (s.nextEdge.rst = false ∧ s.phase ≠ .busy ∧ s.nextEdge.start = true ∧
      step s = .next (s.hold.accept s.nextEdge.op s.nextEdge.operands)) ∨
    (s.nextEdge.rst = false ∧ s.phase ≠ .busy ∧ s.nextEdge.start = false ∧ step s = .next s.hold) := by
  unfold step
  cases hr : s.nextEdge.rst with
  | true => exact .inl ⟨rfl, rfl⟩
  | false =>
    refine .inr ?_
    cases hp : s.phase with
    | busy => exact .inl ⟨rfl, rfl, rfl⟩
    | idle =>
      cases hs : s.nextEdge.start with
      | true => exact .inr (.inl ⟨rfl, by simp, rfl, rfl⟩)
      | false => exact .inr (.inr ⟨rfl, by simp, rfl, rfl⟩)
    | done =>
      cases hs : s.nextEdge.start with
      | true => exact .inr (.inl ⟨rfl, by simp, rfl, rfl⟩)
      | false => exact .inr (.inr ⟨rfl, by simp, rfl, rfl⟩)

end Sys2Proof.Machine
end

