-- ==== Sys2Proof/Laws/Exec.lean ====
section
/-! SUPPORT. What each command answers once its prechecks have passed, and what the loops of the scalar multiplications
keep. -/

namespace Sys2Proof.Machine

/-- The complete transition in the words of the claims. -/
theorem State.complete_eq_doneWith (ls : List SubOp) (out : CmdOutcome) (s : State) :
    s.complete ls out = s.doneWith out.result ls := rfl

theorem Traced.outcome_result_ok {r : Traced Point} {R : Point} (h : r.out = .ok R) :
    r.outcome.result = pointResult R := by
  cases R <;> simp [Traced.outcome, h] <;> rfl

theorem Traced.outcome_result_error {r : Traced Point} {e : FailKind} (h : r.out = .error e) :
    r.outcome.result = failureResult e.code := by
  simp [Traced.outcome, h]
  rfl

/-- No failure kind has the code of success, and none has the code 7 (R140). -/
theorem FailKind.code_ne (e : FailKind) : e.code ≠ 0 ∧ e.code ≠ 7 := by cases e <;> decide

theorem exec_padd {o : Operands} (s : State) (hp : 2 ≤ o.p) (h0 : (pt0 o).inRange o.p = true)
    (h1 : (pt1 o).inRange o.p = true) :
    exec (.padd o) s = .next (s.doneWith (addStep o.p (pt0 o) (pt1 o)).outcome.result [.A]) := by
  simp only [exec, execPadd]
  rw [prechecked_of_pass s _ hp (by simp [h0, h1]), State.completePoint_eq_complete]
  rfl

theorem exec_pdbl {o : Operands} (s : State) (hp : 2 ≤ o.p) (h0 : (pt0 o).inRange o.p = true) :
    exec (.pdbl o) s = .next (s.doneWith (doubleStep o.a o.p (pt0 o)).outcome.result [.D]) := by
  simp only [exec, execPdbl]
  rw [prechecked_of_pass s _ hp (by simp [h0]), State.completePoint_eq_complete]
  rfl

/-- From cleared working registers an execution of `SMDAA` is the whole loop. -/
theorem exec_smdaa {o : Operands} (s : State) (hw : s.work = WorkRegs.cleared) (hp : 2 ≤ o.p)
    (h0 : (pt0 o).inRange o.p = true) :
    exec (.smdaa o) s =
      .next (s.doneWith (smdaa o.a o.p (pt0 o) o.k).outcome.result (smdaa o.a o.p (pt0 o) o.k).letters) := by
  simp only [exec, execSmdaa]
  rw [prechecked_of_pass s _ hp (by simp [h0]), State.completePoint_eq_complete, hw]
  rfl

/-- From cleared working registers an execution of `SMLAD` is the whole loop. -/
theorem exec_smlad {o : Operands} (s : State) (hw : s.work = WorkRegs.cleared) (hp : 2 ≤ o.p)
    (h0 : (pt0 o).inRange o.p = true) :
    exec (.smlad o) s =
      .next (s.doneWith (smlad o.a o.p (pt0 o) o.k).outcome.result (smlad o.a o.p (pt0 o) o.k).letters) := by
  simp only [exec, execSmlad]
  rw [prechecked_of_pass s _ hp (by simp [h0]), State.completePoint_eq_complete, hw]
  rfl

/-- `bitlen` is the bit length the claims speak of (R15). -/
theorem bitlen_eq_of_isBitLength {k n : Nat} (h : IsBitLength k n) : bitlen k = n := by
  refine le_antisymm (bitlen_le_iff.2 h.1) ?_
  by_contra hc
  have h2 := h.2 (by omega)
  have := bitlen_le_iff.1 (show bitlen k ≤ n - 1 by omega)
  omega

theorem bit_eq_testBit (k i : Nat) : bit k i = if k.testBit i then 1 else 0 := by
  rw [bit, Nat.testBit_eq_decide_div_mod_eq]
  rcases Nat.mod_two_eq_zero_or_one (k / 2 ^ i) with h | h <;> simp [h]

theorem acc_inRange {a p : Nat} (hp : 0 < p) {Q T R : Point} (hQ : Q.inRange p = true) (hT : T.inRange p = true)
    (h : (acc a p Q T).out = .ok R) : R.inRange p = true := by
  obtain ⟨-, -, he⟩ | ⟨-, he⟩ := acc_cases a p Q T <;> rw [he] at h
  · exact pdbl_inRange hp h
  · exact padd_inRange hp hQ hT h

/-- An iteration of `SMDAA` keeps both points in range. -/
theorem daaStep_inRange {a p b : Nat} (hp : 0 < p) {Q T : Point} {R : Point × Point} (hQ : Q.inRange p = true)
    (hT : T.inRange p = true) (h : (daaStep a p Q T b).out = .ok R) : R.1.inRange p = true ∧ R.2.inRange p = true := by
  rw [daaStep] at h
  obtain ⟨Q', h1, h⟩ := Traced.bind_out_ok.1 h
  obtain ⟨T', h2, h⟩ := Traced.bind_out_ok.1 h
  cases h
  refine ⟨?_, pdbl_inRange hp h2⟩
  split at h1
  · exact acc_inRange hp hQ hT h1
  · cases h1; exact hQ

/-- An iteration of `SMLAD` keeps both points in range. -/
theorem ladStep_inRange {a p b : Nat} (hp : 0 < p) {Q T : Point} {R : Point × Point} (hQ : Q.inRange p = true)
    (hT : T.inRange p = true) (h : (ladStep a p Q T b).out = .ok R) : R.1.inRange p = true ∧ R.2.inRange p = true := by
  rw [ladStep] at h
  obtain ⟨S, h1, h⟩ := Traced.bind_out_ok.1 h
  obtain ⟨T', h2, h⟩ := Traced.bind_out_ok.1 h
  split at h <;> cases h
  · exact ⟨pdbl_inRange hp h2, padd_inRange hp hQ hT h1⟩
  · exact ⟨padd_inRange hp hQ hT h1, pdbl_inRange hp h2⟩

/-- One unit of progress ends in a complete transition or after one more iteration. -/
theorem iterate_cases (i : Instr) (s : State) :
    (∃ ls out, iterate i s = .next (s.complete ls out)) ∨
    (∃ w ls t0 t1, iterate i s = .next (s.afterIteration w ls t0 t1)) := by
  cases i with
  | oncurve o => exact .inl (exec_eq_complete (.oncurve o) s)
  | padd o => exact .inl (exec_eq_complete (.padd o) s)
  | pdbl o => exact .inl (exec_eq_complete (.pdbl o) s)
  | smdaa o =>
    obtain ⟨e, -, h⟩ | ⟨-, ⟨-, h⟩ | ⟨-, R, -, h⟩ | ⟨-, e, -, h⟩⟩ := iterateSmdaa_cases o s
    · exact .inl ⟨_, _, h⟩
    · exact .inl ⟨_, _, h.trans (by rw [State.completePoint_eq_complete])⟩
    · exact .inr ⟨_, _, _, _, h⟩
    · exact .inl ⟨_, _, h⟩
  | smlad o =>
    obtain ⟨e, -, h⟩ | ⟨-, ⟨-, h⟩ | ⟨-, R, -, h⟩ | ⟨-, e, -, h⟩⟩ := iterateSmlad_cases o s
    · exact .inl ⟨_, _, h⟩
    · exact .inl ⟨_, _, h.trans (by rw [State.completePoint_eq_complete])⟩
    · exact .inr ⟨_, _, _, _, h⟩
    · exact .inl ⟨_, _, h⟩
  | reserved0 o => exact .inl (exec_eq_complete (.reserved0 o) s)
  | reserved6 o => exact .inl (exec_eq_complete (.reserved6 o) s)
  | reserved7 o => exact .inl (exec_eq_complete (.reserved7 o) s)

end Sys2Proof.Machine
end

