-- ==== Sys2Proof/Tests/Slice0.lean ====
section
/-! SUPPORT. The model's own tests. Expected frames, results and traces are those of spec/95_test_vectors.md, named by
their ids there, or words written out bit by bit from the field table of spec/30_encoding.md R55. After the tests stands
one witness for each statement with hypotheses. -/

namespace Sys2Proof.Tests

open Sys2Proof Sys2Proof.Machine

/-! ## Well-formedness: each check refuses an ill-formed command -/

def zeroOps : Operands := Operands.zero

/-- Every field at the largest value its port carries for W = KW = 8. -/
def onesOps : Operands :=
  { a := 255, b := 255, p := 255, inf0 := true, x0 := 255, y0 := 255, inf1 := true, x1 := 255, y1 := 255, k := 255 }

theorem test_wf_accepts_largest : (Instr.padd onesOps).wellFormed tableSizes = true := by decide
theorem test_wf_refuses_a : ({ zeroOps with a := 256 } : Operands).misfit tableSizes = some .a ∧
    (Instr.padd { zeroOps with a := 256 }).wellFormed tableSizes = false := by decide
theorem test_wf_refuses_b : ({ zeroOps with b := 256 } : Operands).misfit tableSizes = some .b ∧
    (Instr.pdbl { zeroOps with b := 256 }).wellFormed tableSizes = false := by decide
theorem test_wf_refuses_p : ({ zeroOps with p := 256 } : Operands).misfit tableSizes = some .p ∧
    (Instr.oncurve { zeroOps with p := 256 }).wellFormed tableSizes = false := by decide
theorem test_wf_refuses_x0 : ({ zeroOps with x0 := 256 } : Operands).misfit tableSizes = some .x0 ∧
    (Instr.smdaa { zeroOps with x0 := 256 }).wellFormed tableSizes = false := by decide
theorem test_wf_refuses_y0 : ({ zeroOps with y0 := 256 } : Operands).misfit tableSizes = some .y0 ∧
    (Instr.smlad { zeroOps with y0 := 256 }).wellFormed tableSizes = false := by decide
theorem test_wf_refuses_x1 : ({ zeroOps with x1 := 256 } : Operands).misfit tableSizes = some .x1 ∧
    (Instr.reserved0 { zeroOps with x1 := 256 }).wellFormed tableSizes = false := by decide
theorem test_wf_refuses_y1 : ({ zeroOps with y1 := 256 } : Operands).misfit tableSizes = some .y1 ∧
    (Instr.reserved6 { zeroOps with y1 := 256 }).wellFormed tableSizes = false := by decide
theorem test_wf_refuses_k : ({ zeroOps with k := 256 } : Operands).misfit tableSizes = some .k ∧
    (Instr.reserved7 { zeroOps with k := 256 }).wellFormed tableSizes = false := by decide

/-! ## Decoding words written out bit by bit, `k y1 x1 inf1 y0 x0 inf0 p b a op` from the top bit down (R55) -/

theorem test_decode_oncurve :
    decode tableSizes 0b00000000_00000000_00000000_0_00000001_00000101_0_00010001_00000010_00000010_001 =
      .ok (asmOncurve 2 2 17 (.aff 5 1)) := by decide +kernel
theorem test_decode_padd :
    decode tableSizes 0b00000000_00000011_00000110_0_00000001_00000101_0_00010001_00000011_00000010_010 =
      .ok (asmPadd 2 3 17 (.aff 5 1) (.aff 6 3)) := by decide +kernel
theorem test_decode_pdbl :
    decode tableSizes 0b00000000_00000000_00000000_0_00000000_00000000_1_00010001_00000111_00000010_011 =
      .ok (asmPdbl 2 7 17 .inf) := by decide +kernel
theorem test_decode_smdaa :
    decode tableSizes 0b10000001_00000000_00000000_0_00000001_00000010_0_00000111_00000001_00000011_100 =
      .ok (asmSmdaa 3 1 7 (.aff 2 1) 129) := by decide +kernel
theorem test_decode_smlad :
    decode tableSizes 0b00001101_00001011_00001010_1_00001001_00001000_1_00000111_00000110_00000101_101 =
      .ok (.smlad { a := 5, b := 6, p := 7, inf0 := true, x0 := 8, y0 := 9, inf1 := true, x1 := 10, y1 := 11, k := 13 }) := by
  decide +kernel
theorem test_decode_reserved0 :
    decode tableSizes 0b00000001_00000000_00000000_0_00000000_00000000_0_00000000_00000000_00000000_000 =
      .ok (.reserved0 { zeroOps with k := 1 }) := by decide +kernel
theorem test_decode_reserved6 :
    decode tableSizes 0b00000000_00000000_00000000_1_00000000_00000000_0_00000000_00000000_00000000_110 =
      .ok (.reserved6 { zeroOps with inf1 := true }) := by decide +kernel
theorem test_decode_reserved7 :
    decode tableSizes 0b00000000_00000000_00000000_0_10000000_00000000_0_00000000_00000000_00000000_111 =
      .ok (.reserved7 { zeroOps with y0 := 128 }) := by decide +kernel

/-- Other sizes than the tables': W = 2, KW = 1, 20 bits. -/
theorem test_decode_small_sizes : decode { W := 2, KW := 1 } 0b1_01_10_1_11_01_0_11_10_01_010 =
    .ok (.padd { a := 1, b := 2, p := 3, inf0 := false, x0 := 1, y0 := 3, inf1 := true, x1 := 2, y1 := 1, k := 1 }) := by
  decide +kernel

theorem test_decode_refuses_wide : decode tableSizes (2 ^ 69) = .error .frameTooWide := by decide +kernel

/-- V2.22, V3.9: the encoder gives the printed frames. -/
theorem test_encode_printed :
    encode tableSizes (.padd (lineOperands 2 2 17 (.aff 9 16) (.aff 16 4) 200)) = 0x190082010090881012 ∧
    encode tableSizes (asmPdbl 19 2 17 (.aff 5 1)) = 0x00000000105088109B := by decide +kernel

/-! ## One step on each command -/

/-- `RES` (R66, W = 8), `done` and the trace of a next state. -/
def answer (out : StepOutcome) : Option (Nat × Bool × List SubOp) :=
  match out with
  | .next t => some (t.resFrame tableSizes, t.outputs.done, t.trace)
  | .fault _ => none
  | .refused _ => none

/-- The answer of the step that runs the frame `w` first after reset. -/
def runFrame (w : Nat) : Option (Nat × Bool × List SubOp) := answer (step (State.reset.withFetchWord 72 w))

/-- V1.14, V1.4: infinity with coordinates in its fields. -/
theorem test_oncurve_true : runFrame 0x00000000D100881011 = some (0x000008, true, []) ∧
    runFrame 0x000000063C88881011 = some (0x000008, true, []) := by decide +kernel
/-- V1.13, V1.8. -/
theorem test_oncurve_false : runFrame 0x000000001050781011 = some (0x000000, true, []) ∧
    runFrame 0x000000001110881011 = some (0x000004, true, []) := by decide +kernel
/-- V2.16 (composite modulus), V2.18 (off the curve). -/
theorem test_padd_chord : runFrame 0x0000A0602010781012 = some (0x008040, true, [.A]) ∧
    runFrame 0x000060E01050881012 = some (0x01E0C0, true, [.A]) := by decide +kernel
/-- V2.8: a point with `y = 0` twice; V6.8: a precheck wins over the cases. -/
theorem test_padd_fails : runFrame 0x00000080004038081A = some (0x000001, true, [.A]) ∧
    runFrame 0x000220A01050881012 = some (0x000004, true, []) := by decide +kernel
/-- V3.14 (composite modulus), V3.16. -/
theorem test_pdbl_tangent : runFrame 0x000000002010781013 = some (0x010100, true, [.D]) ∧
    runFrame 0x000000010050881013 = some (0x01C0C0, true, [.D]) := by decide +kernel
/-- V3.15: no inverse for `p = 2`; V3.6. -/
theorem test_pdbl_fails : runFrame 0x00000000101010000B = some (0x000003, true, [.D]) ∧
    runFrame 0x000000000050881013 = some (0x000002, true, [.D]) := by decide +kernel
/-- V4.11: an accumulation by doubling. -/
theorem test_smdaa_equal_points :
    runFrame 0x05A000001050881014 = some (0x00C000, true, [.A, .D, .D, .A, .D, .A, .D, .D, .D, .D]) := by decide +kernel
/-- V4.26: the last, unused doubling fails. -/
theorem test_smdaa_unused_doubling : runFrame 0x00400000100038081C = some (0x000002, true, [.D, .A, .D]) := by
  decide +kernel
/-- V5.9: the group order. -/
theorem test_smlad_order :
    runFrame 0x026000001050881015 = some (0x000010, true, [.A, .D, .A, .D, .A, .D, .A, .D, .A, .D]) := by decide +kernel
/-- V5.14: the discarded doubling of the last iteration fails. -/
theorem test_smlad_discarded_doubling :
    runFrame 0x01600000102038081D = some (0x000002, true, [.A, .D, .A, .D, .A, .D, .A, .D]) := by decide +kernel
/-- V6.1, V6.6 and V6.5. -/
theorem test_reserved : runFrame 0x000000000000000000 = some (0x000006, true, []) ∧
    runFrame 0x000000001110001016 = some (0x000006, true, []) ∧
    runFrame 0x1FFFFFFFFFFFFFFFFF = some (0x000006, true, []) := by decide +kernel

/-- An execution advanced by one iteration (table 2.5.1, first row): the ladder's registers, still busy. -/
theorem test_iterate_ladder :
    (match step { State.reset.accept 5 (lineOperands 2 2 17 (.aff 5 1) (.aff 0 0) 13) with
        edges := [{ Edge.idle with pace := .iterate }] } with
      | .next t => some (t.phase, t.work, t.trace)
      | .fault _ => none
      | .refused _ => none) =
      some (.busy, { t0 := .aff 5 1, t1 := .aff 6 3, n := 4, idx := 1 }, [.A, .D]) := by decide +kernel

/-- H3, edge 2: reset while busy wins over `start` and over the operands. -/
theorem test_reset_wins :
    step { State.reset.accept 5 (lineOperands 2 2 17 (.aff 5 1) (.aff 0 0) 13) with
        edges := [{ (Edge.present tableSizes 0x006000001050881014 .finish) with rst := true }] } = .next State.reset := by
  rfl

/-- H4, edge L1: `start` at the completing edge is no accept. -/
theorem test_start_at_completion :
    answer (step { State.reset.accept 3 (lineOperands 2 2 17 (.aff 5 1) (.aff 0 0) 0) with
        edges := [Edge.present tableSizes 0x006000001050881014 .finish] }) = some (0x0060C0, true, [.D]) := by
  decide +kernel

/-! ## Witnesses: for each statement with hypotheses, data that meet them -/

/-- The operands of `G + [2]G` on E17. -/
def opsG : Operands := lineOperands 2 2 17 (.aff 5 1) (.aff 6 3) 13

/-- The same with the scalar 0. -/
def opsG0 : Operands := { opsG with k := 0 }

/-- A busy state right after accept. -/
def busy (op : Opcode) (o : Operands) : State := State.reset.accept op o

theorem witness_DecodeOfEncodeIsTheCommand :
    (Instr.smlad onesOps).wellFormed tableSizes = true := by decide
theorem witness_EncodeOfDecodeIsTheFrame :
    2 ^ 69 - 1 < 2 ^ (7 * tableSizes.W + tableSizes.KW + 5) ∧ 2 ^ (7 * tableSizes.W + tableSizes.KW + 5) ≤ 2 ^ 69 := by
  decide
theorem witness_FrameFieldsStandAtTheirBits :
    2 ^ 69 - 1 < 2 ^ (7 * tableSizes.W + tableSizes.KW + 5) := by decide
theorem witness_OpcodeMapNamesEachRow :
    ∀ n < 8, 2 ^ 69 - 8 + n < 2 ^ (7 * tableSizes.W + tableSizes.KW + 5) ∧ (2 ^ 69 - 8 + n) % 8 = n := by decide
theorem witness_ResetEdgeClearsEverything :
    let e : Edge := { Edge.idle with rst := true, start := true }
    let s : State := { busy 5 opsG with edges := [e, Edge.idle] }
    s.edges = e :: [Edge.idle] ∧ e.rst = true := by decide
theorem witness_AcceptLatchesTheWholeCommand_ignored :
    (busy 2 opsG).phase = .busy ∧ Edge.idle.start = false := by decide
theorem witness_AcceptLatchesTheWholeCommand :
    let e := Edge.present tableSizes 0x01A060C01050881012 .wait
    let s : State := { State.reset with edges := [e] }
    let s' : State := { State.reset with phase := .done, edges := [e] }
    e.rst = false ∧ e.start = true ∧ s.edges = e :: [] ∧ s.phase = .idle ∧ s'.edges = e :: [] ∧ s'.phase = .done := by
  decide +kernel
theorem witness_BusyEdgeIgnoresStartAndOperands : (busy 2 opsG).phase = .busy := by decide
theorem witness_IdleAndDoneHoldWithoutStart :
    let e : Edge := { Edge.idle with operands := opsG, op := 2 }
    let s : State := { State.reset with edges := [e] }
    let s' : State := { State.reset with phase := .done, edges := [e] }
    e.rst = false ∧ e.start = false ∧ s.edges = e :: [] ∧ s.phase = .idle ∧ s'.edges = e :: [] ∧ s'.phase = .done := by
  decide
theorem witness_StepRunsTheDecodedCommand_accept :
    let s : State := { State.reset with edges := [Edge.present tableSizes 0x01A060C01050881012 .wait] }
    let s' : State := { s with phase := .done }
    decode tableSizes 0x01A060C01050881012 = .ok (.padd opsG) ∧ s.phase = .idle ∧ s'.phase = .done ∧
      s.edges = Edge.present tableSizes 0x01A060C01050881012 .wait :: [] := by decide +kernel
theorem witness_StepRunsTheDecodedCommand_busy :
    let at_ (pace : Pace) : State := { busy 5 opsG with edges := [{ Edge.idle with pace := pace }] }
    ∀ pace ∈ [Pace.wait, .iterate, .finish],
      (at_ pace).phase = .busy ∧ (at_ pace).edges = { Edge.idle with pace := pace } :: [] ∧ Edge.idle.rst = false := by
  decide
theorem witness_FetchedWordRunsNext :
    decodeTableWord 72 0xE1A060C01050881012 = some (.padd opsG) ∧ decodeTableWord 8 0xFFA = some (.padd { zeroOps with a := 31 }) := by
  decide +kernel
theorem witness_OperandRegistersChangeOnlyByAcceptOrReset :
    (∃ t, step (busy 2 opsG) = .next t) ∧ (busy 2 opsG).nextEdge.rst = false ∧ (busy 2 opsG).phase = .busy ∧
    (∃ t, step State.reset = .next t) ∧ State.reset.nextEdge.rst = false ∧ State.reset.nextEdge.start = false :=
  ⟨⟨_, rfl⟩, rfl, rfl, ⟨_, rfl⟩, rfl, rfl⟩
theorem witness_NothingIsCarriedIntoTheNextCommand :
    let e := Edge.present tableSizes 0x01A060C01050881012 .wait
    let s : State := { State.reset with edges := [e] }
    let s' : State := { (State.reset.complete [.A] (.err .equalPoints)) with operands := opsG, op := 2, edges := [e] }
    s.phase ≠ .busy ∧ s'.phase ≠ .busy ∧ s.edges = e :: [] ∧ s'.edges = e :: [] ∧ e.rst = false ∧ e.start = true ∧ s ≠ s' := by
  decide +kernel
theorem witness_SmallModulusFailsEveryCommand :
    ({ opsG with p := 0 } : Operands).p = 0 ∧ ({ opsG with p := 1 } : Operands).p = 1 ∧
    2 ≤ ({ opsG with p := 2 } : Operands).p ∧
    ∀ i ∈ [Instr.oncurve { opsG with p := 2 }, .padd { opsG with p := 2 }, .pdbl { opsG with p := 2 },
      .smdaa { opsG with p := 2 }, .smlad { opsG with p := 2 }], ∃ t, exec i State.reset = .next t := by
  refine ⟨by decide, by decide, by decide, ?_⟩
  intro i _
  obtain ⟨ls, out, h⟩ := exec_eq_complete i State.reset
  exact ⟨_, h⟩
theorem witness_OutOfRangePointFailsItsReaders :
    (∀ o ∈ [{ opsG with x0 := 17 }, { opsG with y0 := 17 }],
      2 ≤ Operands.p o ∧ o.inf0 = false ∧ (o.p ≤ o.x0 ∨ o.p ≤ o.y0)) ∧
    (∀ o ∈ [{ opsG with x1 := 17 }, { opsG with p := 2, x1 := 0, y1 := 2 }],
      2 ≤ Operands.p o ∧ o.inf1 = false ∧ (o.p ≤ o.x1 ∨ o.p ≤ o.y1)) ∧
    (∀ o ∈ [{ opsG with inf0 := true, x0 := 17, inf1 := true, x1 := 17 }, { opsG with x0 := 16, y0 := 16, x1 := 16, y1 := 16 }],
      2 ≤ Operands.p o ∧ (o.inf0 = true ∨ (o.x0 < o.p ∧ o.y0 < o.p)) ∧ (o.inf1 = true ∨ (o.x1 < o.p ∧ o.y1 < o.p))) ∧
    ∀ i ∈ [Instr.oncurve opsG, .padd opsG, .pdbl opsG, .smdaa opsG, .smlad opsG], ∃ t, exec i State.reset = .next t := by
  refine ⟨by decide, by decide, by decide, ?_⟩
  intro i _
  obtain ⟨ls, out, h⟩ := exec_eq_complete i State.reset
  exact ⟨_, h⟩
theorem witness_PrecheckedCommandsFailOnlyInTheirOperation :
    (∀ o ∈ [opsG, { opsG with p := 2, x0 := 1, y0 := 1, x1 := 1, y1 := 0 }],
      2 ≤ Operands.p o ∧ (pt0 o).inRange o.p = true ∧ (pt1 o).inRange o.p = true) ∧
    ∀ i ∈ [Instr.oncurve opsG, .padd opsG, .pdbl opsG, .smdaa opsG, .smlad opsG], ∃ t, exec i State.reset = .next t := by
  refine ⟨by decide, ?_⟩
  intro i _
  obtain ⟨ls, out, h⟩ := exec_eq_complete i State.reset
  exact ⟨_, h⟩

theorem witness_OncurveAnswersTheCongruence :
    (2 ≤ opsG.p ∧ ({ opsG with inf0 := true, x0 := 200 } : Operands).inf0 = true) ∧
    (opsG.inf0 = false ∧ opsG.x0 < opsG.p ∧ opsG.y0 < opsG.p ∧
      opsG.y0 ^ 2 ≡ opsG.x0 ^ 3 + opsG.a * opsG.x0 + opsG.b [MOD opsG.p]) ∧
    (∀ o ∈ [({ opsG with x0 := 16, y0 := 16 } : Operands)],
      o.inf0 = false ∧ o.x0 < o.p ∧ o.y0 < o.p ∧ ¬ o.y0 ^ 2 ≡ o.x0 ^ 3 + o.a * o.x0 + o.b [MOD o.p]) := by
  unfold Nat.ModEq
  decide

theorem prime_17 : Nat.Prime 17 := by norm_num
theorem prime_7 : Nat.Prime 7 := by norm_num

theorem witness_OncurveDecidesGroupMembership :
    Fact (Nat.Prime opsG.p) ∧ opsG.p ≠ 2 ∧ NonSingular opsG.p opsG.a opsG.b ∧ opsG.inf0 = false ∧ opsG.x0 < opsG.p ∧
      opsG.y0 < opsG.p := by
  refine ⟨⟨prime_17⟩, by decide, ?_, by decide, by decide, by decide⟩
  unfold NonSingular
  decide

theorem witness_PaddOfInfinityIsTheOtherOperand :
    let o : Operands := { opsG with inf0 := true, inf1 := true }
    let o' : Operands := { opsG with inf0 := true, x1 := 16, y1 := 16 }
    let o'' : Operands := { opsG with inf1 := true, x0 := 0, y0 := 16 }
    (2 ≤ o.p ∧ (pt0 o).inRange o.p = true ∧ (pt1 o).inRange o.p = true ∧ o.inf0 = true ∧ o.inf1 = true) ∧
    (2 ≤ o'.p ∧ (pt0 o').inRange o'.p = true ∧ (pt1 o').inRange o'.p = true ∧ o'.inf0 = true ∧ o'.inf1 = false) ∧
    (2 ≤ o''.p ∧ (pt0 o'').inRange o''.p = true ∧ (pt1 o'').inRange o''.p = true ∧ o''.inf0 = false ∧ o''.inf1 = true) := by
  decide
theorem witness_PaddOfInverseAndOfEqualPoints :
    let o : Operands := { opsG with x1 := 5, y0 := 1, y1 := 16 }
    let o' : Operands := { opsG with x1 := 5, y0 := 0, y1 := 0 }
    (2 ≤ o.p ∧ o.inf0 = false ∧ o.inf1 = false ∧ o.x0 < o.p ∧ o.y0 < o.p ∧ o.y1 < o.p ∧ o.x1 = o.x0 ∧
      o.y1 = (o.p - o.y0) % o.p ∧ o.y1 ≠ o.y0) ∧
    (2 ≤ o'.p ∧ o'.inf0 = false ∧ o'.inf1 = false ∧ o'.x0 < o'.p ∧ o'.y0 < o'.p ∧ o'.y1 < o'.p ∧ o'.x1 = o'.x0 ∧
      o'.y1 = o'.y0) := by decide
/-- V2.1: `x1 - x0 = 1`. -/
theorem witness_PaddChordFormula :
    2 ≤ opsG.p ∧ opsG.inf0 = false ∧ opsG.inf1 = false ∧ opsG.x0 < opsG.p ∧ opsG.y0 < opsG.p ∧ opsG.x1 < opsG.p ∧
    opsG.y1 < opsG.p ∧ ¬ (opsG.x0 = opsG.x1 ∧ (opsG.y1 = opsG.y0 ∨ opsG.y1 = (opsG.p - opsG.y0) % opsG.p)) ∧
    (1 : Int) * (opsG.x1 - opsG.x0) ≡ 1 [ZMOD opsG.p] ∧ (2 : Int) = (opsG.y1 - opsG.y0) * 1 := by
  unfold Int.ModEq
  decide
/-- V2.15 and V2.17. -/
theorem witness_PaddWithoutInverseFails :
    ∀ o ∈ [lineOperands 2 2 15 (.aff 1 2) (.aff 4 5) 0, lineOperands 2 2 17 (.aff 5 1) (.aff 5 2) 0],
      2 ≤ o.p ∧ o.inf0 = false ∧ o.inf1 = false ∧ o.x0 < o.p ∧ o.y0 < o.p ∧ o.x1 < o.p ∧ o.y1 < o.p ∧
      ¬ (o.x0 = o.x1 ∧ (o.y1 = o.y0 ∨ o.y1 = (o.p - o.y0) % o.p)) ∧ Int.gcd ((o.x1 : Int) - o.x0) o.p ≠ 1 := by decide
theorem witness_PdblOfInfinityAndOfZeroY :
    2 ≤ opsG.p ∧ ({ opsG with inf0 := true } : Operands).inf0 = true ∧
    (∀ o ∈ [({ opsG with x0 := 16, y0 := 0 } : Operands)], 2 ≤ o.p ∧ o.inf0 = false ∧ o.x0 < o.p ∧ o.y0 = 0) := by decide
/-- V3.1: the inverse of 2 is 9. -/
theorem witness_PdblTangentFormula :
    2 ≤ opsG.p ∧ opsG.inf0 = false ∧ opsG.x0 < opsG.p ∧ opsG.y0 < opsG.p ∧ opsG.y0 ≠ 0 ∧
    (9 : Int) * (2 * opsG.y0) ≡ 1 [ZMOD opsG.p] ∧ (693 : Int) = (3 * opsG.x0 ^ 2 + opsG.a) * 9 := by
  unfold Int.ModEq
  decide
/-- V3.13, V3.14, V3.15 and V3.1. -/
theorem witness_PdblWithoutInverseFails :
    (∀ o ∈ [lineOperands 2 2 15 (.aff 1 3) (.aff 0 0) 0, lineOperands 2 2 15 (.aff 1 2) (.aff 0 0) 0,
        lineOperands 1 0 2 (.aff 1 1) (.aff 0 0) 0, opsG],
      2 ≤ o.p ∧ o.inf0 = false ∧ o.x0 < o.p ∧ o.y0 < o.p ∧ o.y0 ≠ 0) ∧
    (∀ o ∈ [lineOperands 2 2 15 (.aff 1 3) (.aff 0 0) 0], Nat.gcd (2 * o.y0 % o.p) o.p ≠ 1) ∧
    (∀ o ∈ [lineOperands 2 2 15 (.aff 1 2) (.aff 0 0) 0], Nat.gcd (2 * o.y0 % o.p) o.p = 1) ∧
    (lineOperands 1 0 2 (.aff 1 1) (.aff 0 0) 0).p = 2 ∧ Nat.Prime opsG.p ∧ opsG.p ≠ 2 :=
  ⟨by decide, by decide, by decide, by decide, prime_17, by decide⟩

/-! Points of the groups: `(5, 1)` and `(6, 3)` on E17, `(4, 0)` of order 2 and `(6, 2)` of order 3 on E12. -/

theorem onE17_G : (curve 17 2 2).Nonsingular ((5 : Nat) : ZMod 17) ((1 : Nat) : ZMod 17) := by
  rw [WeierstrassCurve.Affine.nonsingular_iff, WeierstrassCurve.Affine.equation_iff]
  simp only [curve]
  decide
theorem onE17_2G : (curve 17 2 2).Nonsingular ((6 : Nat) : ZMod 17) ((3 : Nat) : ZMod 17) := by
  rw [WeierstrassCurve.Affine.nonsingular_iff, WeierstrassCurve.Affine.equation_iff]
  simp only [curve]
  decide
theorem onE12_Z : (curve 7 3 1).Nonsingular ((4 : Nat) : ZMod 7) ((0 : Nat) : ZMod 7) := by
  rw [WeierstrassCurve.Affine.nonsingular_iff, WeierstrassCurve.Affine.equation_iff]
  simp only [curve]
  decide
theorem onE12_S : (curve 7 3 1).Nonsingular ((6 : Nat) : ZMod 7) ((2 : Nat) : ZMod 7) := by
  rw [WeierstrassCurve.Affine.nonsingular_iff, WeierstrassCurve.Affine.equation_iff]
  simp only [curve]
  decide

theorem nonSingular_E17 : NonSingular opsG.p opsG.a opsG.b := by
  unfold NonSingular
  decide

theorem witness_PaddIsGroupAddition :
    Fact (Nat.Prime opsG.p) ∧ NonSingular opsG.p opsG.a opsG.b ∧
    (∃ g h, Represents opsG.p opsG.a opsG.b (pt0 opsG) g ∧ Represents opsG.p opsG.a opsG.b (pt1 opsG) h) ∧
    (pt0 opsG = pt1 opsG → pt0 opsG = .inf) :=
  ⟨⟨prime_17⟩, nonSingular_E17, ⟨.some _ _ onE17_G, .some _ _ onE17_2G, ⟨by decide, by decide, onE17_G, rfl⟩, ⟨by decide, by decide, onE17_2G, rfl⟩⟩,
    by decide⟩

/-- `(6, 2)` on E12 with the scalar 5. -/
def opsS : Operands := lineOperands 3 1 7 (.aff 6 2) (.aff 0 0) 5
/-- `(4, 0)` on E12 with the scalar 1. -/
def opsZ : Operands := lineOperands 3 1 7 (.aff 4 0) (.aff 0 0) 1

theorem nonSingular_E12 : NonSingular opsS.p opsS.a opsS.b ∧ NonSingular opsZ.p opsZ.a opsZ.b := by
  unfold NonSingular
  decide

theorem represents_S : Represents opsS.p opsS.a opsS.b (pt0 opsS) (.some _ _ onE12_S) :=
  ⟨by decide, by decide, onE12_S, rfl⟩

theorem represents_Z : Represents opsZ.p opsZ.a opsZ.b (pt0 opsZ) (.some _ _ onE12_Z) :=
  ⟨by decide, by decide, onE12_Z, rfl⟩

theorem neg_G : -(WeierstrassCurve.Affine.Point.some _ _ onE17_G : (curve 17 2 2).Point) ≠ .some _ _ onE17_G := by
  rw [WeierstrassCurve.Affine.Point.neg_some]
  intro h
  have h2 := (WeierstrassCurve.Affine.Point.some.inj h).2
  simp only [WeierstrassCurve.Affine.negY, curve] at h2
  revert h2
  decide

theorem neg_Z : -(WeierstrassCurve.Affine.Point.some _ _ onE12_Z : (curve 7 3 1).Point) = .some _ _ onE12_Z := by
  rw [WeierstrassCurve.Affine.Point.neg_some]
  have h2 : (curve 7 3 1).negY ((4 : Nat) : ZMod 7) ((0 : Nat) : ZMod 7) = ((0 : Nat) : ZMod 7) := by
    simp only [WeierstrassCurve.Affine.negY, curve]
    decide
  simp only [h2]

/-- Both clauses: `G` is not its own negative, `Z` is. -/
theorem witness_PdblIsGroupDoubling :
    (Fact (Nat.Prime opsG.p) ∧ opsG.p ≠ 2 ∧ NonSingular opsG.p opsG.a opsG.b ∧ ∃ g : (curve opsG.p opsG.a opsG.b).Point,
      Represents opsG.p opsG.a opsG.b (pt0 opsG) g ∧ ¬ (g ≠ 0 ∧ -g = g)) ∧
    (Fact (Nat.Prime opsZ.p) ∧ opsZ.p ≠ 2 ∧ NonSingular opsZ.p opsZ.a opsZ.b ∧ ∃ g : (curve opsZ.p opsZ.a opsZ.b).Point,
      Represents opsZ.p opsZ.a opsZ.b (pt0 opsZ) g ∧ g ≠ 0 ∧ -g = g) :=
  ⟨⟨⟨prime_17⟩, by decide, nonSingular_E17, .some _ _ onE17_G, ⟨by decide, by decide, onE17_G, rfl⟩, fun h => neg_G h.2⟩,
    ⟨⟨prime_7⟩, by decide, nonSingular_E12.2, .some _ _ onE12_Z, represents_Z, WeierstrassCurve.Affine.Point.some_ne_zero onE12_Z, neg_Z⟩⟩

theorem isBitLength_5 : IsBitLength 5 3 := ⟨by decide, fun _ => by decide⟩

/-- No iteration, and the four iterations of table 2.4.1. -/
theorem witness_SmdaaEndsAfterItsIterations :
    ((busy 4 opsG0).work = WorkRegs.cleared ∧ 2 ≤ opsG0.p ∧ (pt0 opsG0).inRange opsG0.p = true ∧ IsBitLength opsG0.k 0 ∧
        DaaChain opsG0 (fun _ => .inf) (fun _ => .aff 5 1) 0) ∧
    (busy 4 opsG).work = WorkRegs.cleared ∧ 2 ≤ opsG.p ∧ (pt0 opsG).inRange opsG.p = true ∧ IsBitLength opsG.k 4 ∧
    DaaChain opsG (fun i => [Point.inf, .aff 5 1, .aff 5 1, .aff 9 16, .aff 16 4].getD i .inf)
      (fun i => [Point.aff 5 1, .aff 6 3, .aff 3 1, .aff 13 7, .aff 10 11].getD i .inf) 4 := by
  unfold IsBitLength DaaChain Accumulates
  dsimp only
  decide +kernel
/-- A failed accumulation (composite modulus), a failed doubling (V4.29). -/
theorem witness_SmdaaFailsWithItsFirstFailure :
    (let o := lineOperands 0 0 15 (.aff 1 1) (.aff 0 0) 3
      let Q : Nat → Point := fun i => [Point.inf, .aff 1 1].getD i .inf
      let T : Nat → Point := fun i => [Point.aff 1 1, .aff 4 2].getD i .inf
      (busy 4 o).work = WorkRegs.cleared ∧ 2 ≤ o.p ∧ (pt0 o).inRange o.p = true ∧ IsBitLength o.k 2 ∧ 1 < 2 ∧
        DaaChain o Q T 1 ∧ Accumulates o 1 (Q 1) (T 1) (.error .noInverse)) ∧
    (let Q : Nat → Point := fun _ => .inf
      let T : Nat → Point := fun _ => .aff 4 0
      (busy 4 opsZ).work = WorkRegs.cleared ∧ 2 ≤ opsZ.p ∧ (pt0 opsZ).inRange opsZ.p = true ∧ IsBitLength opsZ.k 1 ∧
        0 < 1 ∧ DaaChain opsZ Q T 0 ∧ Accumulates opsZ 0 (Q 0) (T 0) (.ok (.aff 4 0)) ∧
        pdbl opsZ.a opsZ.p (T 0) = .error .zeroY) := by
  unfold IsBitLength DaaChain Accumulates
  dsimp only
  refine ⟨⟨rfl, by decide, by decide, by decide, by decide, by decide +kernel, by decide +kernel⟩,
    ⟨rfl, by decide, by decide, by decide, by decide, by decide +kernel, by decide +kernel, by decide +kernel⟩⟩
theorem witness_SmdaaNeverFailsWithEqualPoints : ∃ t, exec (.smdaa opsG) (busy 4 opsG) = .next t := ⟨_, rfl⟩
theorem witness_SmdaaDegenerateOperands :
    (busy 4 opsG).work = WorkRegs.cleared ∧ 2 ≤ opsG.p ∧ ({ opsG with k := 0 } : Operands).k = 0 ∧
      (pt0 { opsG with k := 0 }).inRange opsG.p = true ∧
    ∀ o ∈ [({ opsG with inf0 := true, k := 0 }, 0), ({ opsG with inf0 := true }, 4)],
      (Prod.fst o).inf0 = true ∧ IsBitLength (Prod.fst o : Operands).k o.2 := by
  unfold IsBitLength
  decide
theorem witness_SmdaaTraceLengthCountsSetBits :
    (busy 4 opsG).work = WorkRegs.cleared ∧ IsBitLength opsG.k 4 ∧
    ∃ t, exec (.smdaa opsG) (busy 4 opsG) = .next t ∧ t.result.status = 0 := by
  unfold IsBitLength
  exact ⟨by decide, by decide, _, rfl, by decide +kernel⟩
theorem witness_SmdaaIsScalarMultipleOrZeroY :
    Fact (Nat.Prime opsS.p) ∧ opsS.p ≠ 2 ∧ (busy 4 opsS).work = WorkRegs.cleared ∧ NonSingular opsS.p opsS.a opsS.b ∧
    ∃ g, Represents opsS.p opsS.a opsS.b (pt0 opsS) g :=
  ⟨⟨prime_7⟩, by decide, by decide, nonSingular_E12.1, _, represents_S⟩

theorem negY_S : (curve 7 3 1).negY ((6 : Nat) : ZMod 7) ((2 : Nat) : ZMod 7) = 5 := by
  simp only [WeierstrassCurve.Affine.negY, curve]
  decide
theorem addX_S : (curve 7 3 1).addX ((6 : Nat) : ZMod 7) ((6 : Nat) : ZMod 7) 5 = ((6 : Nat) : ZMod 7) := by
  simp only [WeierstrassCurve.Affine.addX, curve]
  decide
theorem addY_S : (curve 7 3 1).addY ((6 : Nat) : ZMod 7) ((6 : Nat) : ZMod 7) ((2 : Nat) : ZMod 7) 5 = 5 := by
  simp only [WeierstrassCurve.Affine.addY, WeierstrassCurve.Affine.negAddY, WeierstrassCurve.Affine.addX,
    WeierstrassCurve.Affine.negY, curve]
  decide
theorem tangent_S : (3 * ((6 : Nat) : ZMod 7) ^ 2 + 2 * (curve 7 3 1).a₂ * ((6 : Nat) : ZMod 7) + (curve 7 3 1).a₄ -
    (curve 7 3 1).a₁ * ((2 : Nat) : ZMod 7)) = 5 * (((2 : Nat) : ZMod 7) - 5) := by
  simp only [curve]
  decide
theorem two_ne_five : ((2 : Nat) : ZMod 7) ≠ 5 := by decide

/-- `S` has order 3: its double is its negative. -/
theorem three_S [Fact (Nat.Prime 7)] :
    (3 : Nat) • (WeierstrassCurve.Affine.Point.some _ _ onE12_S : (curve 7 3 1).Point) = 0 := by
  have hy : ((2 : Nat) : ZMod 7) ≠ (curve 7 3 1).negY ((6 : Nat) : ZMod 7) ((2 : Nat) : ZMod 7) := by
    rw [negY_S]
    exact two_ne_five
  have hs : (curve 7 3 1).slope ((6 : Nat) : ZMod 7) ((6 : Nat) : ZMod 7) ((2 : Nat) : ZMod 7) ((2 : Nat) : ZMod 7) = 5 := by
    rw [WeierstrassCurve.Affine.slope_of_Y_ne rfl hy, negY_S, div_eq_iff (sub_ne_zero.2 two_ne_five)]
    exact tangent_S
  have hd : (WeierstrassCurve.Affine.Point.some _ _ onE12_S : (curve 7 3 1).Point) + .some _ _ onE12_S =
      -(.some _ _ onE12_S) := by
    rw [WeierstrassCurve.Affine.Point.add_self_of_Y_ne hy, WeierstrassCurve.Affine.Point.neg_some]
    simp only [hs, addX_S, addY_S, negY_S]
  rw [succ_nsmul, two_nsmul, hd, neg_add_cancel]

theorem witness_SmdaaOfOddOrderPointIsItsMultiple :
    ∃ _h : Fact (Nat.Prime opsS.p), opsS.p ≠ 2 ∧ (busy 4 opsS).work = WorkRegs.cleared ∧ NonSingular opsS.p opsS.a opsS.b ∧
    ∃ g, Represents opsS.p opsS.a opsS.b (pt0 opsS) g ∧ Odd 3 ∧ (3 : Nat) • g = 0 := by
  exact ⟨⟨prime_7⟩, by decide, by decide, nonSingular_E12.1, _, represents_S, by decide, @three_S ⟨prime_7⟩⟩

/-- No iteration, and the four iterations of table 2.5.1. -/
theorem witness_SmladEndsAfterItsIterations :
    ((busy 5 opsG0).work = WorkRegs.cleared ∧ 2 ≤ opsG0.p ∧ (pt0 opsG0).inRange opsG0.p = true ∧ IsBitLength opsG0.k 0 ∧
        LadderChain opsG0 0 (fun _ => .inf) (fun _ => .aff 5 1) 0) ∧
    (busy 5 opsG).work = WorkRegs.cleared ∧ 2 ≤ opsG.p ∧ (pt0 opsG).inRange opsG.p = true ∧ IsBitLength opsG.k 4 ∧
    LadderChain opsG 4 (fun i => [Point.inf, .aff 5 1, .aff 10 6, .aff 16 13, .aff 16 4].getD i .inf)
      (fun i => [Point.aff 5 1, .aff 6 3, .aff 3 1, .aff 0 6, .aff 9 1].getD i .inf) 4 := by
  unfold IsBitLength LadderChain
  dsimp only
  decide +kernel
/-- A failed addition (composite modulus), a failed doubling (V5.16). -/
theorem witness_SmladFailsWithItsFirstFailure :
    (let o := lineOperands 0 0 15 (.aff 1 1) (.aff 0 0) 3
      let R0 : Nat → Point := fun i => [Point.inf, .aff 1 1].getD i .inf
      let R1 : Nat → Point := fun i => [Point.aff 1 1, .aff 4 2].getD i .inf
      (busy 5 o).work = WorkRegs.cleared ∧ 2 ≤ o.p ∧ (pt0 o).inRange o.p = true ∧ IsBitLength o.k 2 ∧ 1 < 2 ∧
        LadderChain o 2 R0 R1 1 ∧ padd o.p (R0 1) (R1 1) = .error .noInverse) ∧
    (let R0 : Nat → Point := fun _ => .inf
      let R1 : Nat → Point := fun _ => .aff 4 0
      (busy 5 opsZ).work = WorkRegs.cleared ∧ 2 ≤ opsZ.p ∧ (pt0 opsZ).inRange opsZ.p = true ∧ IsBitLength opsZ.k 1 ∧
        0 < 1 ∧ LadderChain opsZ 1 R0 R1 0 ∧ padd opsZ.p (R0 0) (R1 0) = .ok (.aff 4 0) ∧
        pdbl opsZ.a opsZ.p (if opsZ.k.testBit (1 - 1 - 0) then R1 0 else R0 0) = .error .zeroY) := by
  unfold IsBitLength LadderChain
  dsimp only
  refine ⟨⟨rfl, by decide, by decide, by decide, by decide, by decide +kernel, by decide +kernel⟩,
    ⟨rfl, by decide, by decide, by decide, by decide, by decide +kernel, by decide +kernel, by decide +kernel⟩⟩
theorem witness_SmladTraceRevealsOnlyTheBitLength :
    let o : Operands := { opsG with k := 8 }
    (busy 5 opsG).work = WorkRegs.cleared ∧ (busy 5 o).work = WorkRegs.cleared ∧ (busy 5 opsG).trace = [] ∧
    (busy 5 o).trace = [] ∧ IsBitLength opsG.k 4 ∧ IsBitLength o.k 4 ∧
    (∃ t, exec (.smlad opsG) (busy 5 opsG) = .next t ∧ t.result.status = 0) ∧
    (∃ t, exec (.smlad o) (busy 5 o) = .next t ∧ t.result.status = 0) := by
  unfold IsBitLength
  exact ⟨by decide, by decide, by decide, by decide, by decide, by decide, ⟨_, rfl, by decide +kernel⟩,
    ⟨_, rfl, by decide +kernel⟩⟩
theorem witness_SmladDegenerateOperands :
    (busy 5 opsG).work = WorkRegs.cleared ∧ 2 ≤ opsG.p ∧ ({ opsG with k := 0 } : Operands).k = 0 ∧
      (pt0 { opsG with k := 0 }).inRange opsG.p = true ∧
    ∀ o ∈ [({ opsG with inf0 := true, k := 0 }, 0), ({ opsG with inf0 := true }, 4)],
      (Prod.fst o).inf0 = true ∧ IsBitLength (Prod.fst o : Operands).k o.2 := by
  unfold IsBitLength
  decide
theorem witness_LadderPaddingChangesOnlyTheTrace : IsBitLength 0 0 ∧ 0 ≤ 8 ∧ IsBitLength 13 4 ∧ 4 ≤ 8 := by
  unfold IsBitLength
  decide
theorem witness_SmladIsScalarMultipleOrZeroY :
    Fact (Nat.Prime opsS.p) ∧ opsS.p ≠ 2 ∧ (busy 5 opsS).work = WorkRegs.cleared ∧ NonSingular opsS.p opsS.a opsS.b ∧
    ∃ g, Represents opsS.p opsS.a opsS.b (pt0 opsS) g :=
  ⟨⟨prime_7⟩, by decide, by decide, nonSingular_E12.1, _, represents_S⟩
theorem witness_SmladOfOddOrderPointIsItsMultiple :
    ∃ _h : Fact (Nat.Prime opsS.p), opsS.p ≠ 2 ∧ (busy 5 opsS).work = WorkRegs.cleared ∧ NonSingular opsS.p opsS.a opsS.b ∧
    ∃ g, Represents opsS.p opsS.a opsS.b (pt0 opsS) g ∧ Odd 3 ∧ (3 : Nat) • g = 0 ∧ IsBitLength opsS.k 3 := by
  exact ⟨⟨prime_7⟩, by decide, by decide, nonSingular_E12.1, _, represents_S, by decide, @three_S ⟨prime_7⟩, isBitLength_5⟩
theorem witness_SmdaaAndSmladAgreeOnOddOrder :
    ∃ _h : Fact (Nat.Prime opsS.p), opsS.p ≠ 2 ∧ State.reset.work = WorkRegs.cleared ∧ NonSingular opsS.p opsS.a opsS.b ∧
    ∃ g, Represents opsS.p opsS.a opsS.b (pt0 opsS) g ∧ Odd 3 ∧ (3 : Nat) • g = 0 := by
  exact ⟨⟨prime_7⟩, by decide, by decide, nonSingular_E12.1, _, represents_S, by decide, @three_S ⟨prime_7⟩⟩

/-- V1.14 sets `FLAG`; V2.6 sets `INFR`. -/
theorem witness_FlagsAreSetOnlyByTheirCommands :
    (∃ t, exec (.oncurve opsG) (busy 1 opsG) = .next t ∧ t.result.flag = true) ∧
    (∃ t, exec (.padd { opsG with x1 := 5, y1 := 16 }) (busy 2 opsG) = .next t ∧ t.result.infr = true) :=
  ⟨⟨_, rfl, by decide +kernel⟩, ⟨_, rfl, by decide +kernel⟩⟩
theorem witness_InfinityOperandHidesItsCoordinates :
    ({ opsG with inf0 := true } : Operands).inf0 = true ∧ ({ opsG with inf1 := true } : Operands).inf1 = true := by decide

/-- A ladder half way (table 2.5.1, after two iterations). -/
def midLadder : State :=
  { busy 5 opsG with work := { t0 := .aff 10 6, t1 := .aff 3 1, n := 4, idx := 2 }, trace := [.A, .D, .A, .D] }

/-- Both ends: an iteration that leaves the unit busy, and one that ends the command. -/
theorem witness_IterationThenRestEqualsWhole :
    (midLadder.phase = .busy ∧ ∃ t, iterate midLadder.inFlight midLadder = .next t ∧ t.phase = .busy) ∧
    ((busy 2 opsG).phase = .busy ∧ ∃ t, iterate (busy 2 opsG).inFlight (busy 2 opsG) = .next t ∧ t.phase = .done) :=
  ⟨⟨rfl, _, rfl, by decide +kernel⟩, ⟨rfl, _, rfl, by decide +kernel⟩⟩

theorem midLadder_inv : midLadder.Inv := by
  unfold State.Inv State.OutputsOk State.WorkOk State.LadderTraceOk State.Looping
  exact ⟨by decide, by decide +kernel, by decide +kernel⟩
theorem witness_EveryEdgeKeepsTheInvariant : midLadder.Inv ∧ ∃ t, step midLadder = .next t := ⟨midLadder_inv, _, rfl⟩
theorem witness_EveryEdgeKeepsTheWidths :
    midLadder.Fits tableSizes ∧ midLadder.Fits { W := 5, KW := 4 } ∧ ∃ t, step midLadder = .next t := by
  refine ⟨?_, ?_, _, rfl⟩
  all_goals
    unfold State.Fits
    refine ⟨by decide, by decide, by decide, ?_, ?_, by decide, by decide, by decide⟩
    all_goals
      show _ < _ ∧ _ < _
      decide
/-- Two units of progress are left to each, and one more ends the command; the host strobes `start` meanwhile. -/
theorem witness_EveryCommandCompletes :
    let e : Edge := { Edge.idle with start := true, pace := .iterate }
    let es := [e, { e with pace := .wait }, e, e, e, e]
    let s : State := { midLadder with edges := es ++ [Edge.idle] }
    s.Inv ∧ s.phase = .busy ∧ s.edges = es ++ [Edge.idle] ∧ (∀ x ∈ es, x.rst = false) ∧
      bitlen s.operands.k + 1 ≤ (es.filter fun x => x.pace != .wait).length := by
  refine ⟨midLadder_inv, rfl, rfl, by decide, by decide +kernel⟩
theorem witness_DisciplinedCommandIsAFunctionCall :
    let e : Edge := { Edge.idle with operands := opsG, pace := .iterate }
    let s : State := { (busy 2 opsG).fail [.A] .equalPoints with
      edges := Edge.present tableSizes 0x01A000001050881015 .wait :: ([e, e] ++ Edge.idle :: []) }
    decode tableSizes 0x01A000001050881015 = .ok (asmSmlad 2 2 17 (.aff 5 1) 13) ∧ s.phase ≠ .busy ∧
      s.edges = Edge.present tableSizes 0x01A000001050881015 .wait :: ([e, e] ++ Edge.idle :: []) ∧
      (∀ x ∈ [e, e], x.quiet) ∧ Edge.idle.finishes := by
  unfold Edge.quiet Edge.finishes
  decide +kernel
theorem witness_ResultFrameFields :
    ({ State.reset with phase := .done, result := { ResultRegs.cleared with xr := 255, yr := 255 } } : State).Fits tableSizes := by
  unfold State.Fits
  exact ⟨by decide, by decide, by decide, trivial, trivial, by decide, by decide, by decide⟩

end Sys2Proof.Tests
end

section
/-! PROOFS. One edge at a time: what the step from each phase reads of the next edge's ports (spec/10_state.md R32, R33,
R35, R38; spec/70_reset_and_hazards.md R170, R176). -/

namespace Sys2Proof.Machine

theorem Phase.idle_or_done_of_ne_busy {ph : Phase} (h : ph ≠ .busy) : ph = .idle ∨ ph = .done := by
  cases ph with
  | idle => exact .inl rfl
  | busy => exact absurd rfl h
  | done => exact .inr rfl

theorem State.hold_cons {s : State} {e : Edge} {rest : List Edge} (h : s.edges = e :: rest) :
    s.hold = { s with edges := rest } := by simp [State.hold, h]

/-- While busy an edge resets or executes; neither `start` nor an operand port is looked at (R33, R176). -/
theorem step_of_busy {s : State} {e : Edge} {rest : List Edge} (he : s.edges = e :: rest) (hb : s.phase = .busy) :
    step s = if e.rst then .next { State.reset with edges := rest } else execute e.pace { s with edges := rest } := by
  simp only [step, hb, State.nextEdge_cons s e rest he, State.hold_cons he, State.resetEdge_eq, he, List.tail_cons]

/-- From `IDLE` and from `DONE` alike an edge resets, accepts or holds; the pace is not looked at (R32, R35). -/
theorem step_of_idle_or_done {s : State} {e : Edge} {rest : List Edge} (he : s.edges = e :: rest)
    (hi : s.phase = .idle ∨ s.phase = .done) :
    step s = if e.rst then .next { State.reset with edges := rest }
      else if e.start then .next (State.accept e.op e.operands { s with edges := rest })
      else .next { s with edges := rest } := by
  obtain hp | hp := hi <;>
    simp only [step, hp, State.nextEdge_cons s e rest he, State.hold_cons he, State.resetEdge_eq, he, List.tail_cons]

/-- An edge with `start` accepts from `IDLE` and from `DONE` (R32). -/
theorem step_accept {s : State} {e : Edge} {rest : List Edge} (he : s.edges = e :: rest) (hrst : e.rst = false)
    (hstart : e.start = true) (hi : s.phase = .idle ∨ s.phase = .done) :
    step s = .next (State.accept e.op e.operands { s with edges := rest }) := by
  simp [step_of_idle_or_done he hi, hrst, hstart]

/-- An edge without `start` holds in `IDLE` and in `DONE` (R35). -/
theorem step_hold {s : State} {e : Edge} {rest : List Edge} (he : s.edges = e :: rest) (hrst : e.rst = false)
    (hstart : e.start = false) (hi : s.phase = .idle ∨ s.phase = .done) : step s = .next { s with edges := rest } := by
  simp [step_of_idle_or_done he hi, hrst, hstart]

section twoEdges
variable {s : State} {e e' : Edge} (rest : List Edge)

/-- While busy two edges with the same `rst` and pace have the same effect (R38, R176). -/
theorem step_eq_of_busy (hb : s.phase = .busy) (hrst : e'.rst = e.rst) (hpace : e'.pace = e.pace) :
    step { s with edges := e' :: rest } = step { s with edges := e :: rest } := by
  rw [step_of_busy (s := { s with edges := e' :: rest }) rfl hb, step_of_busy (s := { s with edges := e :: rest }) rfl hb,
    hrst, hpace]

/-- In `IDLE` and `DONE` two edges without `start` and with the same `rst` have the same effect (R35, R38). -/
theorem step_eq_of_no_start (hi : s.phase = .idle ∨ s.phase = .done) (hrst : e'.rst = e.rst)
    (hstart : e.start = false) (hstart' : e'.start = false) :
    step { s with edges := e' :: rest } = step { s with edges := e :: rest } := by
  rw [step_of_idle_or_done (s := { s with edges := e' :: rest }) rfl hi,
    step_of_idle_or_done (s := { s with edges := e :: rest }) rfl hi, hrst, hstart, hstart']
  rfl

end twoEdges

/-- Settles O6: every register of R37's table is read off the reset state. -/
theorem resetLeavesEveryRegisterAtItsValue : Obligations.ResetLeavesEveryRegisterAtItsValue := by
  unfold Obligations.ResetLeavesEveryRegisterAtItsValue
  decide

/-- Settles O8: the accept transition; and an edge that is no accept has its effect through `rst`, and while busy the
pace, alone. -/
theorem acceptLatchesTheWholeCommand : Obligations.AcceptLatchesTheWholeCommand := by
  refine ⟨fun s e rest he hrst hstart hi => step_accept he hrst hstart hi, fun s e rest op o h => ?_,
    fun s e rest hb => step_eq_of_busy rest hb rfl rfl⟩
  by_cases hb : s.phase = .busy
  · exact step_eq_of_busy rest hb rfl rfl
  · have hstart : e.start = false := h.resolve_left hb
    exact step_eq_of_no_start rest (Phase.idle_or_done_of_ne_busy hb) rfl hstart hstart

/-- Settles O10: without `rst` and `start` the edge is used up and nothing else happens. -/
theorem idleAndDoneHoldWithoutStart : Obligations.IdleAndDoneHoldWithoutStart :=
  fun _ _ _ he hrst hstart hi => step_hold he hrst hstart hi

end Sys2Proof.Machine
end

section
/-! PROOFS. R23's table: a command's answer is determined by the operand registers it reads, a point operand counting
as the point it stands for. -/

namespace Sys2Proof.Machine

section reads
variable {o o' : Operands} (s : State)

/-- `ONCURVE` reads `A`, `B`, `P` and `P0` (R23, R76). -/
theorem exec_oncurve_congr (ha : o'.a = o.a) (hb : o'.b = o.b) (hp : o'.p = o.p) (h0 : pt0 o' = pt0 o) :
    exec (.oncurve o') s = exec (.oncurve o) s := by
  simp only [exec, execOncurve, ha, hb, hp, h0]

/-- `PADD` reads `P`, `P0` and `P1` (R23, R86). -/
theorem exec_padd_congr (hp : o'.p = o.p) (h0 : pt0 o' = pt0 o) (h1 : pt1 o' = pt1 o) :
    exec (.padd o') s = exec (.padd o) s := by
  simp only [exec, execPadd, hp, h0, h1]

/-- `PDBL` reads `A`, `P` and `P0` (R23, R101). -/
theorem exec_pdbl_congr (ha : o'.a = o.a) (hp : o'.p = o.p) (h0 : pt0 o' = pt0 o) :
    exec (.pdbl o') s = exec (.pdbl o) s := by
  simp only [exec, execPdbl, ha, hp, h0]

/-- `SMDAA` reads `A`, `P`, `P0` and `K` (R23, R111). -/
theorem exec_smdaa_congr (ha : o'.a = o.a) (hp : o'.p = o.p) (h0 : pt0 o' = pt0 o) (hk : o'.k = o.k) :
    exec (.smdaa o') s = exec (.smdaa o) s := by
  simp only [exec, execSmdaa, ha, hp, h0, hk]

/-- `SMLAD` reads `A`, `P`, `P0` and `K` (R23, R126). -/
theorem exec_smlad_congr (ha : o'.a = o.a) (hp : o'.p = o.p) (h0 : pt0 o' = pt0 o) (hk : o'.k = o.k) :
    exec (.smlad o') s = exec (.smlad o) s := by
  simp only [exec, execSmlad, ha, hp, h0, hk]

end reads

/-- Settles O49: in each row of R23's table the fields replaced are none of those the command reads. -/
theorem unreadFieldsHaveNoEffect : Obligations.UnreadFieldsHaveNoEffect :=
  fun _ _ _ _ _ _ _ s =>
    ⟨exec_oncurve_congr s rfl rfl rfl rfl, exec_padd_congr s rfl rfl rfl, exec_pdbl_congr s rfl rfl rfl,
      exec_smdaa_congr s rfl rfl rfl rfl, exec_smlad_congr s rfl rfl rfl rfl⟩

end Sys2Proof.Machine
end

section
/-! PROOFS. What a frame of `7W + KW + 5` bits decodes to: the row of its low three bits, with the fields at the places of
R55's table (spec/30_encoding.md R55, R56). -/

namespace Sys2Proof

/-- The opcode of a frame is its low three bits (R55). -/
theorem opcodeOfFrame_toNat (f : Nat) : (opcodeOfFrame f).toNat = f % 2 ^ 3 := by
  simp [opcodeOfFrame, field]

/-- A field one bit wide is set exactly when its bit is. -/
theorem field_one_beq_one (v lo : Nat) : (field v lo 1 == 1) = v.testBit lo := by
  rw [field, pow_one, Nat.testBit_eq_decide_div_mod_eq, beq_eq_decide]

section frame
variable {z : Sizes} {f : Nat}

/-- Every number of `7W + KW + 5` bits is a frame (R55, R57). -/
theorem decode_of_lt (hf : f < 2 ^ frameWidth z) :
    decode z f = .ok (Instr.ofFields (opcodeOfFrame f) (operandsOfFrame z f)) :=
  ((decode_cases z f).resolve_right fun h => absurd hf h.1.not_gt).2

/-- The row a frame decodes to is the one its low three bits name (R56). -/
theorem decode_of_mod_eight {n : Nat} (hf : f < 2 ^ frameWidth z) (hn : f % 8 = n) :
    decode z f = .ok (Instr.ofFields (BitVec.ofNat 3 n) (operandsOfFrame z f)) := by
  have hop : opcodeOfFrame f = BitVec.ofNat 3 n := by simp [opcodeOfFrame, field, ← hn]
  rw [decode_of_lt hf, hop]

end frame

/-- Settles O3: the command decoded has the frame's opcode and operand fields, and each of these is the bits of R55's
table; the two flags are one-bit fields. -/
theorem frameFieldsStandAtTheirBits : Obligations.FrameFieldsStandAtTheirBits := by
  intro z f hf
  refine ⟨_, decode_of_lt hf, ?_⟩
  rw [Instr.opcode_ofFields, Instr.operands_ofFields]
  exact ⟨opcodeOfFrame_toNat f, rfl, rfl, rfl, field_one_beq_one f _, rfl, rfl, field_one_beq_one f _, rfl, rfl, rfl⟩

/-- Settles O4: at each of the eight values of the low three bits the opcode map's row is read off. -/
theorem opcodeMapNamesEachRow : Obligations.OpcodeMapNamesEachRow :=
  fun z f hf =>
    ⟨operandsOfFrame z f, decode_of_mod_eight hf, decode_of_mod_eight hf, decode_of_mod_eight hf, decode_of_mod_eight hf,
      decode_of_mod_eight hf, decode_of_mod_eight hf, decode_of_mod_eight hf, decode_of_mod_eight hf⟩

end Sys2Proof
end

section
/-! PROOFS. What `ONCURVE` answers: the field expression of R76 is the curve's congruence over the naturals, and the
command shows its value in `FLAG` (spec/41_on_curve.md R76, R77). -/

namespace Sys2Proof.Machine

theorem pt0_of_inf {o : Operands} (h : o.inf0 = true) : pt0 o = .inf := by simp [pt0, point, h]

theorem pt0_of_finite {o : Operands} (h : o.inf0 = false) : pt0 o = .aff o.x0 o.y0 := by simp [pt0, point, h]

/-- The right side of R76 as the machine computes it, before its last reduction. -/
theorem curve_rhs_modEq (a b p x : Nat) :
    addm p (mulm p (mulm p x x) x) (mulm p a x) + b ≡ x ^ 3 + a * x + b [MOD p] := by
  have hcube : mulm p (mulm p x x) x ≡ x ^ 3 [MOD p] :=
    calc mulm p (mulm p x x) x ≡ mulm p x x * x [MOD p] := Nat.mod_modEq _ _
      _ ≡ x * x * x [MOD p] := (Nat.mod_modEq _ _).mul_right x
      _ = x ^ 3 := by ring
  have hlinear : mulm p a x ≡ a * x [MOD p] := Nat.mod_modEq _ _
  exact ((Nat.mod_modEq _ _).trans (hcube.add hlinear)).add_right b

/-- A finite point is on the curve exactly when the congruence holds (R76); the modulus is any. -/
theorem oncurve_aff_iff (a b p x y : Nat) :
    oncurve a b p (.aff x y) = true ↔ y ^ 2 ≡ x ^ 3 + a * x + b [MOD p] := by
  have hsides : oncurve a b p (.aff x y) = true ↔
      y * y ≡ addm p (mulm p (mulm p x x) x) (mulm p a x) + b [MOD p] := beq_iff_eq
  rw [hsides, ← sq]
  exact ⟨fun h => h.trans (curve_rhs_modEq a b p x), fun h => h.trans (curve_rhs_modEq a b p x).symm⟩

/-- Past its prechecks `ONCURVE` succeeds with the predicate's value and runs no sub-operation (R77, R78, R81). -/
theorem exec_oncurve {o : Operands} (s : State) (hp : 2 ≤ o.p) (h0 : (pt0 o).inRange o.p = true) :
    exec (.oncurve o) s = .next (s.doneWith (boolResult (oncurve o.a o.b o.p (pt0 o))) []) :=
  prechecked_of_pass s _ hp (by simp [h0])

/-- Settles O20: the predicate is true of infinity, and of a finite point it is the congruence. -/
theorem oncurveAnswersTheCongruence : Obligations.OncurveAnswersTheCongruence := by
  intro o s hp
  refine ⟨fun hinf => ?_, fun hfin hx hy => ?_⟩
  · rw [exec_oncurve s hp (by simp [pt0_of_inf hinf]), pt0_of_inf hinf]
    rfl
  · have hexec := exec_oncurve s hp (by rw [pt0_of_finite hfin]; exact Point.inRange_aff.2 ⟨hx, hy⟩)
    rw [pt0_of_finite hfin] at hexec
    rw [← oncurve_aff_iff]
    exact ⟨fun htrue => by rw [hexec, htrue], fun hfalse => by rw [hexec, Bool.eq_false_of_not_eq_true hfalse]⟩

end Sys2Proof.Machine
end

section
/-! PROOFS. What `PADD` answers: an infinity operand gives the other operand, inverse points give infinity, equal points
fail, and the operands may be exchanged (spec/42_point_add.md R86 to R92, R97). -/

namespace Sys2Proof.Machine

theorem pt1_of_inf {o : Operands} (h : o.inf1 = true) : pt1 o = .inf := by simp [pt1, point, h]

theorem pt1_of_finite {o : Operands} (h : o.inf1 = false) : pt1 o = .aff o.x1 o.y1 := by simp [pt1, point, h]

/-! ## The command in terms of `padd` -/

section paddExec
variable {o : Operands} (s : State) (hp : 2 ≤ o.p) (h0 : (pt0 o).inRange o.p = true) (h1 : (pt1 o).inRange o.p = true)
include hp h0 h1

theorem exec_padd_of_ok {R : Point} (h : padd o.p (pt0 o) (pt1 o) = .ok R) :
    exec (.padd o) s = .next (s.doneWith (pointResult R) [.A]) := by
  rw [exec_padd s hp h0 h1, Traced.outcome_result_ok h]

theorem exec_padd_of_error {e : FailKind} (h : padd o.p (pt0 o) (pt1 o) = .error e) :
    exec (.padd o) s = .next (s.doneWith (failureResult e.code) [.A]) := by
  rw [exec_padd s hp h0 h1, Traced.outcome_result_error h]

end paddExec

theorem exec_padd_of_precheck {o : Operands} (s : State) {e : FailKind} (h : precheck o.p [pt0 o, pt1 o] = some e) :
    exec (.padd o) s = .next (s.fail [] e) := by
  simp only [exec, execPadd, prechecked, h]

/-! ## R86's cases 1 to 4 -/

section paddCases
variable (p : Nat)

@[simp] theorem padd_inf_left (P1 : Point) : padd p .inf P1 = .ok P1 := rfl

@[simp] theorem padd_inf_right (P0 : Point) : padd p P0 .inf = .ok P0 := by cases P0 <;> rfl

/-- Case 3 of R86. -/
theorem padd_inverse {y0 y1 : Nat} (x : Nat) (hneg : y1 = (p - y0) % p) (hne : y1 ≠ y0) :
    padd p (.aff x y0) (.aff x y1) = .ok .inf := if_pos ⟨rfl, hneg, hne⟩

/-- Case 4 of R86; a point with `y = 0` is not taken by case 3. -/
theorem padd_self (x y : Nat) : padd p (.aff x y) (.aff x y) = .error .equalPoints := by simp [padd]

end paddCases

/-- Settles O22: cases 1 and 2 of R86 copy the other operand. -/
theorem paddOfInfinityIsTheOtherOperand : Obligations.PaddOfInfinityIsTheOtherOperand := by
  intro o s hp h0 h1
  refine ⟨fun hi0 hi1 => ?_, fun hi0 hf1 => ?_, fun hf0 hi1 => ?_⟩
  · exact exec_padd_of_ok s hp h0 h1 (by rw [pt0_of_inf hi0, pt1_of_inf hi1, padd_inf_left])
  · exact exec_padd_of_ok s hp h0 h1 (by rw [pt0_of_inf hi0, pt1_of_finite hf1, padd_inf_left])
  · exact exec_padd_of_ok s hp h0 h1 (by rw [pt0_of_finite hf0, pt1_of_inf hi1, padd_inf_right])

/-- Settles O23: with one `x` for both points, cases 3 and 4 of R86. -/
theorem paddOfInverseAndOfEqualPoints : Obligations.PaddOfInverseAndOfEqualPoints := by
  intro o s hp hf0 hf1 hx0 hy0 hy1 hx
  have hP0 : pt0 o = .aff o.x0 o.y0 := pt0_of_finite hf0
  have hP1 : pt1 o = .aff o.x0 o.y1 := by rw [pt1_of_finite hf1, hx]
  have h0 : (pt0 o).inRange o.p = true := by rw [hP0]; exact Point.inRange_aff.2 ⟨hx0, hy0⟩
  have h1 : (pt1 o).inRange o.p = true := by rw [hP1]; exact Point.inRange_aff.2 ⟨hx0, hy1⟩
  refine ⟨fun hneg hne => exec_padd_of_ok s hp h0 h1 ?_, fun heq => exec_padd_of_error s hp h0 h1 (e := .equalPoints) ?_⟩
  · rw [hP0, hP1]
    exact padd_inverse o.p o.x0 hneg hne
  · rw [hP0, hP1, heq]
    exact padd_self o.p o.x0 o.y0

/-! ## The chord formula over the integers modulo `p` -/

section modulo
variable {p : Nat}

/-- Values below `p` are determined by their classes modulo `p`. -/
theorem natCast_zmod_inj {u v : Nat} (hu : u < p) (hv : v < p) : (u : ZMod p) = v ↔ u = v := by
  rw [ZMod.natCast_eq_natCast_iff', Nat.mod_eq_of_lt hu, Nat.mod_eq_of_lt hv]

/-- R13 in the ring of integers modulo `p`. -/
theorem invm_eq_ok_iff_zmod {u v : Nat} (hp : 2 ≤ p) : invm p v = .ok u ↔ u < p ∧ (u * v : ZMod p) = 1 := by
  have hone : (u * v : ZMod p) = 1 ↔ u * v % p = 1 := by
    rw [← Nat.cast_mul, ← Nat.cast_one, ZMod.natCast_eq_natCast_iff', Nat.mod_eq_of_lt (show 1 < p by omega)]
  rw [invm_eq_ok_iff hp, hone]

/-- `invm` answers where there is an inverse (R13). -/
theorem exists_invm_eq_ok {v : Nat} {u : ZMod p} (hp : 2 ≤ p) (h : u * v = 1) :
    ∃ n, invm p v = .ok n ∧ (n : ZMod p) = u := by
  have : NeZero p := ⟨by omega⟩
  exact ⟨u.val, (invm_eq_ok_iff_zmod hp).2 ⟨u.val_lt, by rw [ZMod.natCast_zmod_val, h]⟩, ZMod.natCast_zmod_val u⟩

/-- The chord formula succeeds with a point in range exactly where `x1 - x0` has an inverse `u` modulo `p` and the point is
R90's for it. -/
theorem chord_eq_ok_iff {x0 y0 x1 y1 xr yr : Nat} (hp : 2 ≤ p) :
    chord p x0 y0 x1 y1 = .ok (.aff xr yr) ↔
      xr < p ∧ yr < p ∧ ∃ u : ZMod p, u * (x1 - x0) = 1 ∧
        (xr : ZMod p) = ((y1 - y0) * u) ^ 2 - x0 - x1 ∧ (yr : ZMod p) = (y1 - y0) * u * (x0 - xr) - y0 := by
  have hpos : 0 < p := by omega
  obtain ⟨e, hinv, hc⟩ | ⟨n, lam, xc, yc, hinv, rfl, hxc, hyc, hc⟩ := chord_cases p x0 y0 x1 y1
  · have hno : ¬ ∃ u : ZMod p, u * (x1 - x0) = 1 := by
      rintro ⟨u, hu⟩
      obtain ⟨n, hn, -⟩ := exists_invm_eq_ok (v := subm p x1 x0) hp (by rwa [subm_cast _ _ hpos])
      rw [hinv] at hn
      cases hn
    rw [hc]
    exact ⟨nofun, fun ⟨_, _, u, hu, _⟩ => absurd ⟨u, hu⟩ hno⟩
  · have hxlt : xc < p := hxc ▸ subm_lt _ _ hpos
    have hylt : yc < p := hyc ▸ subm_lt _ _ hpos
    have hn : (n : ZMod p) * (x1 - x0) = 1 := by
      rw [← subm_cast x1 x0 hpos]
      exact ((invm_eq_ok_iff_zmod hp).1 hinv).2
    have hxcast : (xc : ZMod p) = ((y1 - y0) * n) ^ 2 - x0 - x1 := by
      simp only [hxc, subm_cast _ _ hpos, mulm_cast, sq]
    have hycast : (yc : ZMod p) = (y1 - y0) * n * (x0 - xc) - y0 := by
      simp only [hyc, subm_cast _ _ hpos, mulm_cast]
    rw [hc, Except.ok.injEq, Point.aff.injEq]
    constructor
    · rintro ⟨rfl, rfl⟩
      exact ⟨hxlt, hylt, n, hn, hxcast, hycast⟩
    · rintro ⟨hx, hy, u, hu, hxr, hyr⟩
      have huniq : u = n := by linear_combination (n : ZMod p) * hu - u * hn
      subst huniq
      have hxeq : xc = xr := (natCast_zmod_inj hxlt hx).1 (hxcast.trans hxr.symm)
      subst hxeq
      exact ⟨rfl, (natCast_zmod_inj hylt hy).1 (hycast.trans hyr.symm)⟩

/-- Exchanging the points negates the inverse and keeps R90's point, since `lam (x1 - x0) = y1 - y0` (R92). -/
theorem chord_swap_of_ok {x0 y0 x1 y1 xr yr : Nat} (hp : 2 ≤ p) (h : chord p x0 y0 x1 y1 = .ok (.aff xr yr)) :
    chord p x1 y1 x0 y0 = .ok (.aff xr yr) := by
  rw [chord_eq_ok_iff hp] at h ⊢
  obtain ⟨hx, hy, u, hu, hxr, hyr⟩ := h
  refine ⟨hx, hy, -u, ?_, ?_, ?_⟩
  · linear_combination hu
  · linear_combination hxr
  · linear_combination hyr - ((y1 : ZMod p) - y0) * hu

/-- The chord formula is symmetric in the points, its failure included (R92). -/
theorem chord_comm (x0 y0 x1 y1 : Nat) (hp : 2 ≤ p) : chord p x1 y1 x0 y0 = chord p x0 y0 x1 y1 := by
  obtain ⟨-, -, hc⟩ | ⟨_, _, xr, yr, -, -, -, -, hc⟩ := chord_cases p x0 y0 x1 y1
  · obtain ⟨-, -, hc'⟩ | ⟨_, _, xr, yr, -, -, -, -, hc'⟩ := chord_cases p x1 y1 x0 y0
    · rw [hc, hc']
    · exact absurd (chord_swap_of_ok hp hc') (by simp [hc])
  · rw [hc, chord_swap_of_ok hp hc]

/-! ## Exchanging the operands -/

/-- Of two values below `p` the second is the negative of the first, as R88 tests it, exactly where their sum is 0 modulo
`p`. -/
theorem eq_neg_mod_iff {y0 y1 : Nat} (h0 : y0 < p) (h1 : y1 < p) :
    y1 = (p - y0) % p ↔ (y0 + y1 : ZMod p) = 0 := by
  have hneg : (((p - y0) % p : Nat) : ZMod p) = -y0 := by simp [Nat.cast_sub h0.le]
  rw [← natCast_zmod_inj h1 (Nat.mod_lt _ (by omega)), hneg, add_comm, eq_neg_iff_add_eq_zero]

/-- Addition is symmetric in its points, outcomes included (R92). -/
theorem padd_comm {P0 P1 : Point} (hp : 2 ≤ p) (h0 : P0.inRange p = true) (h1 : P1.inRange p = true) :
    padd p P1 P0 = padd p P0 P1 := by
  cases P0 with
  | inf => rw [padd_inf_left, padd_inf_right]
  | aff x0 y0 =>
    cases P1 with
    | inf => rw [padd_inf_left, padd_inf_right]
    | aff x1 y1 =>
      have hy0 : y0 < p := (Point.inRange_aff.1 h0).2
      have hy1 : y1 < p := (Point.inRange_aff.1 h1).2
      have hneg : y0 = (p - y1) % p ↔ y1 = (p - y0) % p := by
        rw [eq_neg_mod_iff hy1 hy0, eq_neg_mod_iff hy0 hy1, add_comm]
      have hinverse : x1 = x0 ∧ y0 = (p - y1) % p ∧ y0 ≠ y1 ↔ x0 = x1 ∧ y1 = (p - y0) % p ∧ y1 ≠ y0 :=
        and_congr eq_comm (and_congr hneg ne_comm)
      have hequal : x1 = x0 ∧ y1 = y0 ↔ x0 = x1 ∧ y0 = y1 := and_congr eq_comm eq_comm
      simp only [padd, hinverse, hequal, chord_comm x0 y0 x1 y1 hp]

end modulo

/-- The prechecks do not look at the order of the points (R144). -/
theorem precheck_perm (p : Nat) {reads reads' : List Point} (h : reads.Perm reads') :
    precheck p reads = precheck p reads' := by
  simp only [precheck, h.all_eq]

/-- The command with its point operands exchanged. -/
def swapPoints (o : Operands) : Operands :=
  { o with inf0 := o.inf1, x0 := o.x1, y0 := o.y1, inf1 := o.inf0, x1 := o.x0, y1 := o.y0 }

@[simp] theorem swapPoints_p (o : Operands) : (swapPoints o).p = o.p := rfl
@[simp] theorem pt0_swapPoints (o : Operands) : pt0 (swapPoints o) = pt1 o := rfl
@[simp] theorem pt1_swapPoints (o : Operands) : pt1 (swapPoints o) = pt0 o := rfl

/-- Settles O26: the prechecks and, past them, the addition are symmetric in the two points. -/
theorem paddCommutes : Obligations.PaddCommutes := by
  intro o s
  change exec (.padd (swapPoints o)) s = exec (.padd o) s
  cases hpre : precheck o.p [pt0 o, pt1 o] with
  | some e =>
    have hpre' : precheck o.p [pt1 o, pt0 o] = some e := (precheck_perm o.p (.swap _ _ [])).trans hpre
    rw [exec_padd_of_precheck s hpre, exec_padd_of_precheck s hpre']
  | none =>
    obtain ⟨hp, hreads⟩ := precheck_eq_none_iff.1 hpre
    have h0 : (pt0 o).inRange o.p = true := hreads _ (by simp)
    have h1 : (pt1 o).inRange o.p = true := hreads _ (by simp)
    have hstep : addStep o.p (pt1 o) (pt0 o) = addStep o.p (pt0 o) (pt1 o) := by
      rw [addStep, addStep, padd_comm hp h0 h1]
    rw [exec_padd s hp h0 h1, exec_padd (o := swapPoints o) s hp h1 h0, pt0_swapPoints, pt1_swapPoints,
      swapPoints_p, hstep]

end Sys2Proof.Machine
end

section
/-! PROOFS. What `PDBL` answers: infinity for infinity, `ZERO_Y` for `y = 0`, and past these the tangent formula, which
fails exactly where `2 y` has no inverse (spec/43_point_double.md R101 to R105, R109). -/

namespace Sys2Proof.Machine

/-! ## The command in terms of `pdbl` -/

section pdblExec
variable {o : Operands} (s : State) (hp : 2 ≤ o.p) (h0 : (pt0 o).inRange o.p = true)
include hp h0

theorem exec_pdbl_of_ok {R : Point} (h : pdbl o.a o.p (pt0 o) = .ok R) :
    exec (.pdbl o) s = .next (s.doneWith (pointResult R) [.D]) := by
  rw [exec_pdbl s hp h0, Traced.outcome_result_ok h]

theorem exec_pdbl_of_error {e : FailKind} (h : pdbl o.a o.p (pt0 o) = .error e) :
    exec (.pdbl o) s = .next (s.doneWith (failureResult e.code) [.D]) := by
  rw [exec_pdbl s hp h0, Traced.outcome_result_error h]

end pdblExec

/-! ## R101's cases -/

section pdblCases
variable (a p x : Nat) {y : Nat}

@[simp] theorem pdbl_inf : pdbl a p .inf = .ok .inf := rfl

/-- Case 2 of R101 (R103). -/
@[simp] theorem pdbl_zero_y : pdbl a p (.aff x 0) = .error .zeroY := rfl

/-- Case 3 of R101. -/
theorem pdbl_of_ne_zero (hy : y ≠ 0) : pdbl a p (.aff x y) = tangent a p x y := if_neg hy

/-- `invm` fails on the tangent's denominator by R105's condition. -/
theorem invm_two_mul_eq_error_iff {e : FailKind} :
    invm p (mulm p 2 y) = .error e ↔ e = .noInverse ∧ Nat.gcd (2 * y % p) p ≠ 1 := by
  rw [invm_eq_error_iff, mulm, Nat.mod_mod]

/-- A doubling with `y ≠ 0` fails with `NO_INVERSE` where `2 y` has no inverse (R105). -/
theorem pdbl_of_gcd_ne_one (hy : y ≠ 0) (hgcd : Nat.gcd (2 * y % p) p ≠ 1) :
    pdbl a p (.aff x y) = .error .noInverse := by
  have hfails : invm p (mulm p 2 y) = .error .noInverse := (invm_two_mul_eq_error_iff p).2 ⟨rfl, hgcd⟩
  obtain ⟨-, -, htangent⟩ | ⟨u, -, -, -, hinv, -⟩ := tangent_cases a p x y
  · rw [pdbl_of_ne_zero a p x hy, htangent]
  · exact absurd (hinv.symm.trans hfails) nofun

/-- A doubling with `y ≠ 0` yields a point where `2 y` has an inverse (R104, R105). -/
theorem exists_pdbl_eq_ok_of_gcd_eq_one (hy : y ≠ 0) (hgcd : Nat.gcd (2 * y % p) p = 1) :
    ∃ R, pdbl a p (.aff x y) = .ok R := by
  obtain ⟨e, hinv, -⟩ | ⟨_, _, xr, yr, -, -, -, -, htangent⟩ := tangent_cases a p x y
  · exact absurd hgcd ((invm_two_mul_eq_error_iff p).1 hinv).2
  · exact ⟨.aff xr yr, by rw [pdbl_of_ne_zero a p x hy, htangent]⟩

end pdblCases

/-- For an odd prime modulus `2 y` has an inverse for every `y` in range other than 0 (R105). -/
theorem gcd_two_mul_mod_eq_one_of_prime {p y : Nat} (hprime : p.Prime) (hodd : p ≠ 2) (hlt : y < p) (hy : y ≠ 0) :
    Nat.gcd (2 * y % p) p = 1 := by
  have htwo : Nat.Coprime p 2 := (Nat.coprime_primes hprime Nat.prime_two).2 hodd
  have hcoprime : Nat.Coprime p y := Nat.coprime_of_lt_prime hy hlt hprime
  rw [← Nat.gcd_rec]
  exact htwo.mul_right hcoprime

/-- Settles O28: cases 1 and 2 of R101. -/
theorem pdblOfInfinityAndOfZeroY : Obligations.PdblOfInfinityAndOfZeroY := by
  intro o s hp
  refine ⟨fun hinf => ?_, fun hfin hx hy => ?_⟩
  · have hP : pt0 o = .inf := pt0_of_inf hinf
    exact exec_pdbl_of_ok s hp (by simp [hP]) (by rw [hP, pdbl_inf])
  · have hP : pt0 o = .aff o.x0 0 := by rw [pt0_of_finite hfin, hy]
    have h0 : (pt0 o).inRange o.p = true := by rw [hP]; exact Point.inRange_aff.2 ⟨hx, by omega⟩
    exact exec_pdbl_of_error s hp h0 (e := .zeroY) (by rw [hP, pdbl_zero_y])

/-- Settles O30: the outcome turns on `gcd(2 y mod p, p)`, which is 2 for `p = 2` and 1 for an odd prime. -/
theorem pdblWithoutInverseFails : Obligations.PdblWithoutInverseFails := by
  intro o s hp hfin hx hlt hy
  have hP : pt0 o = .aff o.x0 o.y0 := pt0_of_finite hfin
  have h0 : (pt0 o).inRange o.p = true := by rw [hP]; exact Point.inRange_aff.2 ⟨hx, hlt⟩
  have hfails (hgcd : Nat.gcd (2 * o.y0 % o.p) o.p ≠ 1) :
      exec (.pdbl o) s = .next (s.doneWith (failureResult 3) [.D]) :=
    exec_pdbl_of_error s hp h0 (e := .noInverse) (by rw [hP, pdbl_of_gcd_ne_one o.a o.p o.x0 hy hgcd])
  have hsucceeds (hgcd : Nat.gcd (2 * o.y0 % o.p) o.p = 1) :
      ∃ R, exec (.pdbl o) s = .next (s.doneWith (pointResult R) [.D]) := by
    obtain ⟨R, hR⟩ := exists_pdbl_eq_ok_of_gcd_eq_one o.a o.p o.x0 hy hgcd
    exact ⟨R, exec_pdbl_of_ok s hp h0 (by rw [hP, hR])⟩
  refine ⟨hfails, hsucceeds, fun htwo => hfails ?_, fun hprime hodd => hsucceeds ?_⟩
  · simp [htwo]
  · exact gcd_two_mul_mod_eq_one_of_prime hprime hodd hlt hy

end Sys2Proof.Machine
end

section
/-! PROOFS. What `SMDAA` answers for degenerate operands: infinity for `k = 0` and for an infinity operand
(spec/44_scalar_mul_daa.md R114, R116, R117). -/

namespace Sys2Proof.Machine

/-- Past its prechecks an `SMDAA` whose loop ends well shows the accumulator. -/
theorem exec_smdaa_of_ok {o : Operands} (s : State) (hw : s.work = WorkRegs.cleared) (hp : 2 ≤ o.p)
    (h0 : (pt0 o).inRange o.p = true) {ls : List SubOp} {R : Point}
    (h : smdaa o.a o.p (pt0 o) o.k = { letters := ls, out := .ok R }) :
    exec (.smdaa o) s = .next (s.doneWith (pointResult R) ls) := by
  rw [exec_smdaa s hw hp h0, h, Traced.outcome_result_ok rfl]

/-- The scalar 0 has no bits to iterate over (R117). -/
theorem smdaa_zero (a p : Nat) (P0 : Point) : smdaa a p P0 0 = Traced.pure .inf := rfl

section infinity
variable (a p : Nat)

/-- An accumulator at infinity is never doubled by the accumulation (R114). -/
@[simp] theorem acc_inf_left (T : Point) : acc a p .inf T = addStep p .inf T := if_neg fun h => h.1 rfl

/-- The letters of an iteration whose accumulation is an addition (R116). -/
def daaBitLetters (k i : Nat) : List SubOp := if k.testBit i then [.A, .D] else [.D]

/-- An iteration from two infinities keeps them (R117). -/
theorem daaStep_inf (k i : Nat) :
    daaStep a p .inf .inf (bit k i) = { letters := daaBitLetters k i, out := .ok (.inf, .inf) } := by
  rw [bit_eq_testBit, daaBitLetters]
  cases k.testBit i with
  | true => simp [daaStep, Traced.bind]
  | false => simp [daaStep, Traced.bind]

/-- So do any number of iterations, each spelling its bit (R117). -/
theorem daaLoop_inf (k count i : Nat) :
    daaLoop a p k count i .inf .inf =
      { letters := (List.range' i count).flatMap (daaBitLetters k), out := .ok .inf } := by
  induction count generalizing i with
  | zero => rfl
  | succ count ih =>
    rw [daaLoop, daaStep_inf, Traced.bind_ok rfl, ih, List.range'_succ, List.flatMap_cons]

/-- Every multiple of infinity is infinity, with one iteration per bit of the scalar (R117). -/
theorem smdaa_inf (k : Nat) :
    smdaa a p .inf k = { letters := (List.range (bitlen k)).flatMap (daaBitLetters k), out := .ok .inf } := by
  rw [smdaa, daaLoop_inf, List.range_eq_range']

end infinity

/-- Settles O35: the scalar 0 runs no iteration; from an infinity operand every iteration keeps accumulator and base at
infinity. -/
theorem smdaaDegenerateOperands : Obligations.SmdaaDegenerateOperands := by
  intro o s n hw hp
  refine ⟨fun hk h0 => ?_, fun hinf hn => ?_⟩
  · exact exec_smdaa_of_ok s hw hp h0 (by rw [hk, smdaa_zero, Traced.pure])
  · have hP : pt0 o = .inf := pt0_of_inf hinf
    have hmul : smdaa o.a o.p (pt0 o) o.k =
        { letters := (List.range n).flatMap (daaBitLetters o.k), out := .ok .inf } := by
      rw [hP, smdaa_inf, bitlen_eq_of_isBitLength hn]
    exact exec_smdaa_of_ok s hw hp (by rw [hP, Point.inRange_inf]) hmul

end Sys2Proof.Machine
end

section
/-! PROOFS. The ladder one iteration at a time: what an iteration answers, what is left of the loop after a run of
iterations that succeed, a first failure, and leading zero bits (spec/45_scalar_mul_ladder.md R126, R127, R131 to R133). -/

namespace Sys2Proof.Machine

/-! ## One iteration -/

/-- A choice on a bit's value is a choice on the bit. -/
theorem ite_bit_eq_zero {α : Type} (k i : Nat) (u v : α) :
    (if bit k i = 0 then u else v) = if k.testBit i then v else u := by
  rw [bit_eq_testBit]
  cases k.testBit i with
  | true => rfl
  | false => rfl

section ladStep
variable {a p b : Nat} {R0 R1 : Point}

/-- An iteration whose addition and doubling succeed hands each register its result (R127, R130). -/
theorem ladStep_of_ok {S T : Point} (hadd : padd p R0 R1 = .ok S) (hdbl : pdbl a p (if b = 0 then R0 else R1) = .ok T) :
    ladStep a p R0 R1 b = { letters := [.A, .D], out := .ok (if b = 0 then (T, S) else (S, T)) } := by
  rw [ladStep, Traced.bind_ok hadd, Traced.bind_ok hdbl]
  rfl

/-- The addition comes first: where it fails the iteration has no doubling (R133). -/
theorem ladStep_of_add_error {e : FailKind} (hadd : padd p R0 R1 = .error e) :
    ladStep a p R0 R1 b = { letters := [.A], out := .error e } := by
  rw [ladStep, Traced.bind_error hadd]
  rfl

/-- A doubling that fails ends the iteration after its addition (R133). -/
theorem ladStep_of_double_error {S : Point} {e : FailKind} (hadd : padd p R0 R1 = .ok S)
    (hdbl : pdbl a p (if b = 0 then R0 else R1) = .error e) :
    ladStep a p R0 R1 b = { letters := [.A, .D], out := .error e } := by
  rw [ladStep, Traced.bind_ok hadd, Traced.bind_error hdbl]
  rfl

/-- From `R0 = Inf` an iteration on a zero bit changes neither register (R132). -/
theorem ladStep_inf_zero (P0 : Point) : ladStep a p .inf P0 0 = { letters := [.A, .D], out := .ok (.inf, P0) } :=
  ladStep_of_ok (padd_inf_left p P0) (pdbl_inf a p)

end ladStep

/-- The iterations of a chain succeed, each with the letters `A D` (R127, R131). -/
theorem LadderChain.ladStep_eq {o : Operands} {n m i : Nat} {R0 R1 : Nat → Point} (h : LadderChain o n R0 R1 m)
    (hi : i < m) :
    ladStep o.a o.p (R0 i) (R1 i) (bit o.k (n - 1 - i)) =
      { letters := [.A, .D], out := .ok (R0 (i + 1), R1 (i + 1)) } := by
  obtain ⟨-, -, hsteps⟩ := h
  have hstep := hsteps i hi
  split at hstep
  next hset =>
    obtain ⟨hadd, hdbl⟩ := hstep
    rw [ladStep_of_ok hadd (T := R1 (i + 1)) (by rw [ite_bit_eq_zero, if_pos hset, hdbl]), ite_bit_eq_zero, if_pos hset]
  next hclear =>
    obtain ⟨hadd, hdbl⟩ := hstep
    rw [ladStep_of_ok hadd (T := R0 (i + 1)) (by rw [ite_bit_eq_zero, if_neg hclear, hdbl]), ite_bit_eq_zero,
      if_neg hclear]

/-! ## The loop -/

section ladLoop
variable {a p k n j : Nat} {R0 R1 : Nat → Point}

/-- After `j` iterations that succeed, the loop over `n` bits is the loop over the `n - j` bits left, its letters behind
`(A D)^j` (R126, R128, R131). -/
theorem ladLoop_after_steps (hj : j ≤ n)
    (hsteps : ∀ i < j, ladStep a p (R0 i) (R1 i) (bit k (n - 1 - i)) =
      { letters := [.A, .D], out := .ok (R0 (i + 1), R1 (i + 1)) }) :
    ladLoop a p k n (R0 0) (R1 0) =
      { letters := ladderLetters j ++ (ladLoop a p k (n - j) (R0 j) (R1 j)).letters
        out := (ladLoop a p k (n - j) (R0 j) (R1 j)).out } := by
  induction j with
  | zero => rfl
  | succ j ih =>
    have hcount : n - j = n - (j + 1) + 1 := by omega
    have hbit : n - 1 - j = n - (j + 1) := by omega
    have hstep := hsteps j j.lt_succ_self
    rw [hbit] at hstep
    rw [ih (by omega) fun i hi => hsteps i (by omega), hcount, ladLoop, hstep, Traced.bind_ok rfl, ladderLetters,
      List.append_assoc]

/-- The first iteration to fail ends the loop (R133). -/
theorem ladLoop_of_step_error {count : Nat} {P Q : Point} {e : FailKind} {ls : List SubOp}
    (h : ladStep a p P Q (bit k count) = { letters := ls, out := .error e }) :
    ladLoop a p k (count + 1) P Q = { letters := ls, out := .error e } := by
  rw [ladLoop, h, Traced.bind_error rfl]

/-- Bits above the scalar's are zero, so from `Inf` and `P0` the loop over them only writes its letters (R132). -/
theorem ladLoop_of_lt_two_pow {m : Nat} (P0 : Point) (hk : k < 2 ^ n) (hm : n ≤ m) :
    ladLoop a p k m .inf P0 =
      { letters := ladderLetters (m - n) ++ (ladLoop a p k n .inf P0).letters
        out := (ladLoop a p k n .inf P0).out } := by
  have hsteps (i : Nat) (hi : i < m - n) :
      ladStep a p .inf P0 (bit k (m - 1 - i)) = { letters := [.A, .D], out := .ok (.inf, P0) } := by
    have hclear : k.testBit (m - 1 - i) = false :=
      Nat.testBit_lt_two_pow (hk.trans_le (Nat.pow_le_pow_right (by decide) (by omega)))
    rw [bit_eq_testBit, hclear, if_neg Bool.false_ne_true, ladStep_inf_zero]
  have hloop := ladLoop_after_steps (R0 := fun _ => .inf) (R1 := fun _ => P0) (Nat.sub_le m n) hsteps
  rwa [Nat.sub_sub_self hm] at hloop

end ladLoop

/-! ## The command -/

/-- Past its prechecks an `SMLAD` whose loop fails shows the failure. -/
theorem exec_smlad_of_error {o : Operands} (s : State) (hw : s.work = WorkRegs.cleared) (hp : 2 ≤ o.p)
    (h0 : (pt0 o).inRange o.p = true) {ls : List SubOp} {e : FailKind}
    (h : smlad o.a o.p (pt0 o) o.k = { letters := ls, out := .error e }) :
    exec (.smlad o) s = .next (s.doneWith (failureResult e.code) ls) := by
  rw [exec_smlad s hw hp h0, h, Traced.outcome_result_error rfl]

/-- Where the iterations before `j` succeed and iteration `j` fails, that failure ends `SMLAD`'s loop (R133). -/
theorem LadderChain.smlad_of_step_error {o : Operands} {n j : Nat} {R0 R1 : Nat → Point} {e : FailKind}
    {ls : List SubOp} (h : LadderChain o n R0 R1 j) (hn : IsBitLength o.k n) (hj : j < n)
    (hstep : ladStep o.a o.p (R0 j) (R1 j) (bit o.k (n - 1 - j)) = { letters := ls, out := .error e }) :
    smlad o.a o.p (pt0 o) o.k = { letters := ladderLetters j ++ ls, out := .error e } := by
  have ⟨hR0, hR1, _⟩ := h
  have hcount : n - j = n - 1 - j + 1 := by omega
  rw [smlad, bitlen_eq_of_isBitLength hn, ← hR0, ← hR1, ladLoop_after_steps hj.le fun i hi => h.ladStep_eq hi, hcount,
    ladLoop_of_step_error hstep]

/-- Settles O40: the iteration that fails does so in its addition or else in its doubling. -/
theorem smladFailsWithItsFirstFailure : Obligations.SmladFailsWithItsFirstFailure := by
  intro o s n j R0 R1 e hw hp h0 hn hj hchain
  refine ⟨fun hadd => ?_, fun S hadd hdbl => ?_⟩
  · exact exec_smlad_of_error s hw hp h0 (hchain.smlad_of_step_error hn hj (ladStep_of_add_error hadd))
  · rw [← ite_bit_eq_zero] at hdbl
    exact exec_smlad_of_error s hw hp h0 (hchain.smlad_of_step_error hn hj (ladStep_of_double_error hadd hdbl))

/-- Settles O43: no bit at or above the scalar's bit length is set. -/
theorem ladderPaddingChangesOnlyTheTrace : Obligations.LadderPaddingChangesOnlyTheTrace := by
  intro a p k P0 n m ⟨hk, _⟩ hm
  rw [ladLoop_of_lt_two_pow P0 hk hm]
  exact ⟨rfl, rfl⟩

end Sys2Proof.Machine
end

section
/-! PROOFS. The failures that belong to no operation: a reserved opcode, a modulus below 2, a point out of range
(spec/60_exceptions.md R144 to R147). Each of the five commands is one prechecked execution whose own failures are those of
its additions and doublings, so `BAD_MODULUS` and `OPERAND_RANGE` come from the prechecks alone. -/

namespace Sys2Proof.Machine

/-! ## The prechecks -/

/-- A legal modulus leaves the prechecks one way to fail (R144, R147). -/
theorem precheck_eq_some_of_two_le {p : Nat} {reads : List Point} {e : FailKind} (hp : 2 ≤ p)
    (h : precheck p reads = some e) : e = .operandRange := by
  rw [precheck, if_neg (Nat.not_lt.2 hp)] at h
  split at h
  · cases h
  · exact (Option.some.inj h).symm

/-- A point operand is in range where it is infinity, whatever its coordinate fields, or both of them are below the modulus
(R59, R147). -/
theorem point_inRange_iff {p x y : Nat} {inf : Bool} :
    (point inf x y).inRange p = true ↔ inf = true ∨ (x < p ∧ y < p) := by
  cases inf with
  | true => simp [point]
  | false => simp [point, Point.inRange_aff]

theorem point_inRange_eq_false {p x y : Nat} {inf : Bool} (hfin : inf = false) (h : p ≤ x ∨ p ≤ y) :
    (point inf x y).inRange p = false := by
  rw [Bool.eq_false_iff, Ne, point_inRange_iff]
  rintro (hinf | ⟨hx, hy⟩)
  · exact absurd (hfin.symm.trans hinf) nofun
  · omega

/-! ## What an operation fails with -/

/-- The failure kinds of an addition or a doubling (R94, R107). -/
def FailKind.OfOperation (e : FailKind) : Prop := e = .equalPoints ∨ e = .zeroY ∨ e = .noInverse

/-- If the execution fails, an addition or a doubling does. -/
def Traced.FailsInOperation {α : Type} (r : Traced α) : Prop := ∀ e, r.out = .error e → e.OfOperation

theorem Traced.FailsInOperation.pure {α : Type} (v : α) : (Traced.pure v).FailsInOperation := fun _ h => nomatch h

theorem Traced.FailsInOperation.bind {α β : Type} {r : Traced α} {f : α → Traced β} (hr : r.FailsInOperation)
    (hf : ∀ v, (f v).FailsInOperation) : (r.bind f).FailsInOperation := by
  intro e h
  obtain hfirst | ⟨v, -, hnext⟩ := Traced.bind_out_error.1 h
  · exact hr e hfirst
  · exact hf v e hnext

section operations
variable (a p k : Nat)

theorem addStep_failsInOperation (P0 P1 : Point) : (addStep p P0 P1).FailsInOperation := by
  intro e h
  obtain ⟨hequal, -, -⟩ | hinv := padd_error h
  · exact .inl hequal
  · exact .inr (.inr hinv)

theorem doubleStep_failsInOperation (P0 : Point) : (doubleStep a p P0).FailsInOperation := fun _ h => .inr (pdbl_error h)

theorem acc_failsInOperation (Q T : Point) : (acc a p Q T).FailsInOperation := by
  obtain ⟨-, -, hdouble⟩ | ⟨-, hadd⟩ := acc_cases a p Q T
  · rw [hdouble]; exact doubleStep_failsInOperation a p Q
  · rw [hadd]; exact addStep_failsInOperation p Q T

theorem daaStep_failsInOperation (Q T : Point) (b : Nat) : (daaStep a p Q T b).FailsInOperation := by
  refine .bind ?_ fun Q' => .bind (doubleStep_failsInOperation a p T) fun T' => .pure (Q', T')
  split
  · exact acc_failsInOperation a p Q T
  · exact .pure Q

theorem daaLoop_failsInOperation (count i : Nat) (Q T : Point) : (daaLoop a p k count i Q T).FailsInOperation := by
  induction count generalizing i Q T with
  | zero => exact .pure Q
  | succ count ih => exact .bind (daaStep_failsInOperation a p Q T (bit k i)) fun R => ih (i + 1) R.1 R.2

theorem ladStep_failsInOperation (R0 R1 : Point) (b : Nat) : (ladStep a p R0 R1 b).FailsInOperation :=
  .bind (addStep_failsInOperation p R0 R1) fun _ => .bind (doubleStep_failsInOperation a p _) fun _ => .pure _

theorem ladLoop_failsInOperation (count : Nat) (R0 R1 : Point) : (ladLoop a p k count R0 R1).FailsInOperation := by
  induction count generalizing R0 R1 with
  | zero => exact .pure R0
  | succ count ih => exact .bind (ladStep_failsInOperation a p R0 R1 (bit k count)) fun R => ih R.1 R.2

end operations

/-! ## What a command fails with -/

/-- Success or the failure of an addition or a doubling (R140). -/
def OperationStatus (c : StatusCode) : Prop := c = 0 ∨ c = 1 ∨ c = 2 ∨ c = 3

theorem FailKind.OfOperation.operationStatus {e : FailKind} (h : e.OfOperation) : OperationStatus e.code := by
  obtain rfl | rfl | rfl := h
  · exact .inr (.inl rfl)
  · exact .inr (.inr (.inl rfl))
  · exact .inr (.inr (.inr rfl))

theorem Traced.FailsInOperation.operationStatus {r : Traced Point} (h : r.FailsInOperation) :
    OperationStatus r.outcome.result.status := by
  cases hout : r.out with
  | ok R => rw [Traced.outcome_result_ok hout]; cases R <;> exact .inl rfl
  | error e => rw [Traced.outcome_result_error hout]; exact (h e hout).operationStatus

/-- The command `i` with the operands `o` tests the modulus and the points `reads`, and then ends with an operation's
status (R144). -/
def RunsAfterPrechecks (o : Operands) (reads : List Point) (i : Instr) : Prop :=
  ∀ s, ∃ ls out, OperationStatus (CmdOutcome.result out).status ∧
    exec i s = prechecked o.p reads s (.next (s.complete ls out))

section commands
variable (o : Operands)

theorem oncurve_runsAfterPrechecks : RunsAfterPrechecks o [pt0 o] (.oncurve o) :=
  fun _ => ⟨[], .bool (oncurve o.a o.b o.p (pt0 o)), .inl rfl, rfl⟩

/-- A command whose body completes with the point of an execution runs after its prechecks if that execution fails only
in an operation. -/
theorem runsAfterPrechecks_of_completePoint {i : Instr} {reads : List Point} (r : State → Traced Point)
    (hr : ∀ s, (r s).FailsInOperation) (h : ∀ s, exec i s = prechecked o.p reads s (.next (s.completePoint (r s)))) :
    RunsAfterPrechecks o reads i :=
  fun s => ⟨(r s).letters, (r s).outcome, (hr s).operationStatus, by rw [h, State.completePoint_eq_complete]⟩

theorem padd_runsAfterPrechecks : RunsAfterPrechecks o [pt0 o, pt1 o] (.padd o) :=
  runsAfterPrechecks_of_completePoint o _ (fun _ => addStep_failsInOperation o.p (pt0 o) (pt1 o)) fun _ => rfl

theorem pdbl_runsAfterPrechecks : RunsAfterPrechecks o [pt0 o] (.pdbl o) :=
  runsAfterPrechecks_of_completePoint o _ (fun _ => doubleStep_failsInOperation o.a o.p (pt0 o)) fun _ => rfl

theorem smdaa_runsAfterPrechecks : RunsAfterPrechecks o [pt0 o] (.smdaa o) :=
  runsAfterPrechecks_of_completePoint o _ (fun _ => daaLoop_failsInOperation o.a o.p o.k _ _ _ _) fun _ => rfl

theorem smlad_runsAfterPrechecks : RunsAfterPrechecks o [pt0 o] (.smlad o) :=
  runsAfterPrechecks_of_completePoint o _ (fun _ => ladLoop_failsInOperation o.a o.p o.k _ _ _) fun _ => rfl

end commands

namespace RunsAfterPrechecks
variable {o : Operands} {reads : List Point} {i : Instr} {s t : State}

/-- A failed precheck is the whole execution (R144). -/
theorem exec_of_precheck (h : RunsAfterPrechecks o reads i) (s : State) {e : FailKind}
    (he : precheck o.p reads = some e) : exec i s = .next (s.doneWith (failureResult e.code) []) := by
  obtain ⟨ls, out, -, hexec⟩ := h s
  rw [hexec, prechecked, he]
  rfl

theorem exec_of_small_modulus (h : RunsAfterPrechecks o reads i) (s : State) (hp : o.p < 2) :
    exec i s = .next (s.doneWith (failureResult 5) []) :=
  h.exec_of_precheck s (precheck_badModulus reads hp)

theorem exec_of_out_of_range (h : RunsAfterPrechecks o reads i) (s : State) (hp : 2 ≤ o.p) {pt : Point}
    (hread : pt ∈ reads) (hout : pt.inRange o.p = false) : exec i s = .next (s.doneWith (failureResult 4) []) :=
  h.exec_of_precheck s (precheck_operandRange hp hread hout)

/-- Under a legal modulus a command ends with `OPERAND_RANGE` from its prechecks, or with an operation's status. -/
theorem status_cases (h : RunsAfterPrechecks o reads i) (hp : 2 ≤ o.p) (hexec : exec i s = .next t) :
    (precheck o.p reads = some .operandRange ∧ t.result.status = 4) ∨ OperationStatus t.result.status := by
  obtain ⟨ls, out, hstatus, hrun⟩ := h s
  rw [hrun] at hexec
  obtain ⟨e, he, hfail⟩ | ⟨-, hpass⟩ := prechecked_cases o.p reads s (.next (s.complete ls out))
  · obtain rfl := precheck_eq_some_of_two_le hp he
    cases hfail.symm.trans hexec
    exact .inl ⟨he, rfl⟩
  · cases hpass.symm.trans hexec
    exact .inr hstatus

/-- With the prechecks passed only the operation can fail. -/
theorem operationStatus_of_pass (h : RunsAfterPrechecks o reads i) (hp : 2 ≤ o.p)
    (hin : ∀ pt ∈ reads, pt.inRange o.p = true) (hexec : exec i s = .next t) : OperationStatus t.result.status := by
  obtain ⟨hfail, -⟩ | hstatus := h.status_cases hp hexec
  · exact absurd (hfail.symm.trans (precheck_eq_none_iff.2 ⟨hp, hin⟩)) nofun
  · exact hstatus

end RunsAfterPrechecks

theorem OperationStatus.ne_four {c : StatusCode} (h : OperationStatus c) : c ≠ 4 := by
  obtain rfl | rfl | rfl | rfl := h <;> decide

theorem OperationStatus.ne_five {c : StatusCode} (h : OperationStatus c) : c ≠ 5 := by
  obtain rfl | rfl | rfl | rfl := h <;> decide

/-- Under a legal modulus no command ends with `BAD_MODULUS` (R146). -/
theorem RunsAfterPrechecks.status_ne_five {o : Operands} {reads : List Point} {i : Instr} {s t : State}
    (h : RunsAfterPrechecks o reads i) (hp : 2 ≤ o.p) (hexec : exec i s = .next t) : t.result.status ≠ 5 := by
  obtain ⟨-, hfour⟩ | hstatus := h.status_cases hp hexec
  · rw [hfour]; decide
  · exact hstatus.ne_five

/-! ## The obligations -/

/-- A reserved opcode's meaning in the words of the claims (R145). -/
theorem illegal_eq_doneWith (s : State) : illegal s = .next (s.doneWith (failureResult 6) []) := rfl

/-- Settles O16: the three reserved rows share one meaning, which reads no operand. -/
theorem reservedOpcodesFailWithIllegalOp : Obligations.ReservedOpcodesFailWithIllegalOp :=
  fun _ s => ⟨illegal_eq_doneWith s, illegal_eq_doneWith s, illegal_eq_doneWith s⟩

/-- Settles O17: the modulus is the first precheck of each of the five commands, and nothing past it ends with
`BAD_MODULUS`. -/
theorem smallModulusFailsEveryCommand : Obligations.SmallModulusFailsEveryCommand := by
  intro o s
  refine ⟨fun hsmall => ?_, fun hp i t hi hexec => ?_⟩
  · have hp : o.p < 2 := by omega
    exact ⟨(oncurve_runsAfterPrechecks o).exec_of_small_modulus s hp,
      (padd_runsAfterPrechecks o).exec_of_small_modulus s hp, (pdbl_runsAfterPrechecks o).exec_of_small_modulus s hp,
      (smdaa_runsAfterPrechecks o).exec_of_small_modulus s hp, (smlad_runsAfterPrechecks o).exec_of_small_modulus s hp⟩
  · obtain rfl | rfl | rfl | rfl | rfl := hi
    · exact (oncurve_runsAfterPrechecks o).status_ne_five hp hexec
    · exact (padd_runsAfterPrechecks o).status_ne_five hp hexec
    · exact (pdbl_runsAfterPrechecks o).status_ne_five hp hexec
    · exact (smdaa_runsAfterPrechecks o).status_ne_five hp hexec
    · exact (smlad_runsAfterPrechecks o).status_ne_five hp hexec

/-- Settles O18: a point that is read and out of range fails the second precheck; with all that is read in range only the
operation can fail, and never with `OPERAND_RANGE`. -/
theorem outOfRangePointFailsItsReaders : Obligations.OutOfRangePointFailsItsReaders := by
  intro o s hp
  refine ⟨fun hfin hout => ?_, fun hfin hout => ?_, fun hin0 => ⟨fun i t hi hexec => ?_, fun hin1 t hexec => ?_⟩⟩
  · have h0 : (pt0 o).inRange o.p = false := point_inRange_eq_false hfin hout
    have hread {rest : List Point} : pt0 o ∈ pt0 o :: rest := List.mem_cons_self
    exact ⟨(oncurve_runsAfterPrechecks o).exec_of_out_of_range s hp hread h0,
      (padd_runsAfterPrechecks o).exec_of_out_of_range s hp hread h0,
      (pdbl_runsAfterPrechecks o).exec_of_out_of_range s hp hread h0,
      (smdaa_runsAfterPrechecks o).exec_of_out_of_range s hp hread h0,
      (smlad_runsAfterPrechecks o).exec_of_out_of_range s hp hread h0⟩
  · have h1 : (pt1 o).inRange o.p = false := point_inRange_eq_false hfin hout
    exact (padd_runsAfterPrechecks o).exec_of_out_of_range s hp (by simp) h1
  · have h0 : ∀ pt ∈ [pt0 o], pt.inRange o.p = true := List.forall_mem_singleton.2 (point_inRange_iff.2 hin0)
    obtain rfl | rfl | rfl | rfl := hi
    · exact ((oncurve_runsAfterPrechecks o).operationStatus_of_pass hp h0 hexec).ne_four
    · exact ((pdbl_runsAfterPrechecks o).operationStatus_of_pass hp h0 hexec).ne_four
    · exact ((smdaa_runsAfterPrechecks o).operationStatus_of_pass hp h0 hexec).ne_four
    · exact ((smlad_runsAfterPrechecks o).operationStatus_of_pass hp h0 hexec).ne_four
  · have h01 : ∀ pt ∈ [pt0 o, pt1 o], pt.inRange o.p = true :=
      List.forall_mem_cons.2 ⟨point_inRange_iff.2 hin0, List.forall_mem_singleton.2 (point_inRange_iff.2 hin1)⟩
    exact ((padd_runsAfterPrechecks o).operationStatus_of_pass hp h01 hexec).ne_four

end Sys2Proof.Machine
end

section
/-! PROOFS. The reset edge and the busy edge (spec/70_reset_and_hazards.md R170, R174, R176). -/

namespace Sys2Proof.Machine

/-- In every phase `rst` is looked at before anything else (R170). -/
theorem step_of_rst {s : State} {e : Edge} {rest : List Edge} (he : s.edges = e :: rest) (hrst : e.rst = true) :
    step s = .next { State.reset with edges := rest } := by
  by_cases hb : s.phase = .busy
  · rw [step_of_busy he hb, if_pos hrst]
  · rw [step_of_idle_or_done he (Phase.idle_or_done_of_ne_busy hb), if_pos hrst]

/-- Settles O7: `rst` decides the edge in every phase. -/
theorem resetEdgeClearsEverything : Obligations.ResetEdgeClearsEverything :=
  fun _ _ _ he hrst => step_of_rst he hrst

/-- Settles O9: while busy only `rst` and the pace count, and both edges carry the same. -/
theorem busyEdgeIgnoresStartAndOperands : Obligations.BusyEdgeIgnoresStartAndOperands :=
  fun _ _ rest _ _ _ hb => step_eq_of_busy rest hb rfl rfl

end Sys2Proof.Machine
end

section
/-! PROOFS. A frame is the concatenation of its ports, lowest first, so cutting it into fields and concatenating them are
inverse to each other: for the command frame (spec/30_encoding.md R55) and for the result frame (R66). -/

namespace Sys2Proof

/-! ## Concatenation and fields -/

/-- Each value fits the width of its field. -/
inductive FitWidths : List Nat → List Nat → Prop where
  | nil : FitWidths [] []
  | cons {w v : Nat} {ws vs : List Nat} (hv : v < 2 ^ w) (h : FitWidths ws vs) : FitWidths (w :: ws) (v :: vs)

/-- The values of fields of the given widths as one number, the first field lowest. -/
def concat : List Nat → List Nat → Nat
  | w :: ws, v :: vs => v + 2 ^ w * concat ws vs
  | _, _ => 0

/-- The fields of the given widths that stand in `f` one after the other from bit `lo` upward. -/
def fieldsFrom (f lo : Nat) : List Nat → List Nat
  | [] => []
  | w :: ws => field f lo w :: fieldsFrom f (lo + w) ws

/-- Above the lowest field stand the fields of the rest. -/
theorem fieldsFrom_tail {v w : Nat} (r lo : Nat) (h : v < 2 ^ w) (ws : List Nat) :
    fieldsFrom (v + 2 ^ w * r) (lo + w) ws = fieldsFrom r lo ws := by
  induction ws generalizing lo with
  | nil => rfl
  | cons w' ws ih => rw [fieldsFrom, fieldsFrom, field_tail h rfl, Nat.add_right_comm, ih]

/-- The fields of a concatenation are what was put there. -/
theorem fieldsFrom_concat {ws vs : List Nat} (h : FitWidths ws vs) : fieldsFrom (concat ws vs) 0 ws = vs := by
  induction h with
  | nil => rfl
  | cons hv _ ih => rw [concat, fieldsFrom, field_head hv, fieldsFrom_tail _ 0 hv, ih]

/-- A number from bit `lo` upward is the concatenation of its fields, then what stands above them. -/
theorem concat_fieldsFrom_add (f lo : Nat) (ws : List Nat) :
    concat ws (fieldsFrom f lo ws) + 2 ^ ws.sum * (f / 2 ^ (lo + ws.sum)) = f / 2 ^ lo := by
  induction ws generalizing lo with
  | nil => simp [concat]
  | cons w ws ih =>
    rw [div_eq_field_add f lo w, ← ih (lo + w), fieldsFrom, concat, List.sum_cons, Nat.add_assoc lo]
    ring

/-- A number that fits the widths is the concatenation of its fields. -/
theorem concat_fieldsFrom {f : Nat} {ws : List Nat} (h : f < 2 ^ ws.sum) : concat ws (fieldsFrom f 0 ws) = f := by
  simpa [Nat.div_eq_of_lt h] using concat_fieldsFrom_add f 0 ws

theorem concat_lt_two_pow {ws vs : List Nat} (h : FitWidths ws vs) : concat ws vs < 2 ^ ws.sum := by
  induction h with
  | nil => simp [concat]
  | cons hv _ ih =>
    rw [concat, List.sum_cons, Nat.add_comm (_ : Nat) (List.sum _)]
    exact concat_lt hv ih

/-! ## The command frame -/

/-- The widths of the input ports in the frame's order, the opcode first (R55). -/
def portWidths (z : Sizes) : List Nat := [3, z.W, z.W, z.W, 1, z.W, z.W, 1, z.W, z.W, z.KW]

/-- The values of the input ports in the same order (R55). -/
def portValues (op : Opcode) (o : Operands) : List Nat :=
  [op.toNat, o.a, o.b, o.p, o.inf0.toNat, o.x0, o.y0, o.inf1.toNat, o.x1, o.y1, o.k]

theorem portWidths_sum (z : Sizes) : (portWidths z).sum = frameWidth z := by
  simp only [portWidths, List.sum_cons, List.sum_nil, frameWidth]
  omega

theorem portValues_fit {z : Sizes} (op : Opcode) {o : Operands} (h : o.Fits z) :
    FitWidths (portWidths z) (portValues op o) := by
  obtain ⟨ha, hb, hp, hx0, hy0, hx1, hy1, hk⟩ := h
  exact .cons op.isLt <| .cons ha <| .cons hb <| .cons hp <| .cons o.inf0.toNat_lt <| .cons hx0 <| .cons hy0 <|
    .cons o.inf1.toNat_lt <| .cons hx1 <| .cons hy1 <| .cons hk .nil

/-- A truth value is read back from its bit. -/
theorem toNat_beq_one (b : Bool) : (b.toNat == 1) = b := by cases b <;> rfl

theorem toNat_injective {b b' : Bool} (h : b.toNat = b'.toNat) : b = b' := by
  rw [← toNat_beq_one b, h, toNat_beq_one]

theorem portValues_inj {op op' : Opcode} {o o' : Operands} (h : portValues op o = portValues op' o') :
    op = op' ∧ o = o' := by
  simp only [portValues, List.cons.injEq, and_true] at h
  obtain ⟨hop, ha, hb, hp, hinf0, hx0, hy0, hinf1, hx1, hy1, hk⟩ := h
  refine ⟨BitVec.eq_of_toNat_eq hop, ?_⟩
  cases o
  cases o'
  simp only [Operands.mk.injEq]
  exact ⟨ha, hb, hp, toNat_injective hinf0, hx0, hy0, toNat_injective hinf1, hx1, hy1, hk⟩

/-- The encoder concatenates the ports. -/
theorem encode_eq_concat (z : Sizes) (i : Instr) :
    encode z i = concat (portWidths z) (portValues i.opcode i.operands) := by
  simp only [portWidths, portValues, concat, pow_one, Nat.mul_zero, Nat.add_zero]
  rfl

/-- A one-bit field as a truth value. -/
theorem toNat_field_one_beq (f lo : Nat) : (field f lo 1 == 1).toNat = field f lo 1 := by
  have hlt : field f lo 1 < 2 := field_lt f lo 1
  interval_cases field f lo 1 <;> rfl

/-- The decoder cuts the frame into the ports (R55). -/
theorem fieldsFrom_portWidths (z : Sizes) (f : Nat) :
    fieldsFrom f 0 (portWidths z) = portValues (opcodeOfFrame f) (operandsOfFrame z f) := by
  have hop : (opcodeOfFrame f).toNat = field f 0 3 := by rw [opcodeOfFrame_toNat, field, pow_zero, Nat.div_one]
  simp only [portWidths, portValues, fieldsFrom, operandsOfFrame, hop, toNat_field_one_beq]
  ring_nf

theorem operandsOfFrame_fits (z : Sizes) (f : Nat) : (operandsOfFrame z f).Fits z :=
  ⟨field_lt .., field_lt .., field_lt .., field_lt .., field_lt .., field_lt .., field_lt .., field_lt ..⟩

/-- Settles O1: the frame's fields are the command's ports, and these determine the command. -/
theorem decodeOfEncodeIsTheCommand : Obligations.DecodeOfEncodeIsTheCommand := by
  intro z i hi
  have hfit : FitWidths (portWidths z) (portValues i.opcode i.operands) :=
    portValues_fit i.opcode ((Instr.wellFormed_iff z i).1 hi)
  have hlt : encode z i < 2 ^ frameWidth z := by
    rw [encode_eq_concat, ← portWidths_sum]
    exact concat_lt_two_pow hfit
  have hports : portValues (opcodeOfFrame (encode z i)) (operandsOfFrame z (encode z i)) =
      portValues i.opcode i.operands := by
    rw [← fieldsFrom_portWidths, encode_eq_concat, fieldsFrom_concat hfit]
  obtain ⟨hop, ho⟩ := portValues_inj hports
  rw [decode_of_lt hlt, hop, ho, Instr.ofFields_opcode_operands]

/-- Settles O2: a number that fits the frame is the concatenation of its fields, each of which fits its port. -/
theorem encodeOfDecodeIsTheFrame : Obligations.EncodeOfDecodeIsTheFrame := by
  intro z f
  refine ⟨fun hf => ⟨_, decode_of_lt hf, ?_, ?_⟩, fun hf => ?_⟩
  · rw [Instr.wellFormed_iff, Instr.operands_ofFields]
    exact operandsOfFrame_fits z f
  · have hf : f < 2 ^ (portWidths z).sum := by rwa [portWidths_sum]
    rw [encode_eq_concat, Instr.opcode_ofFields, Instr.operands_ofFields, ← fieldsFrom_portWidths,
      concat_fieldsFrom hf]
  · obtain ⟨hlt, -⟩ | ⟨-, hwide⟩ := decode_cases z f
    · exact absurd hf hlt.not_ge
    · exact hwide

/-- Settles O5: the decoder evaluated on each printed frame. -/
theorem printedFramesDecodeAsPrinted : Obligations.PrintedFramesDecodeAsPrinted := by
  unfold Obligations.PrintedFramesDecodeAsPrinted
  decide

end Sys2Proof

namespace Sys2Proof.Machine

/-! ## The result frame -/

/-- The widths of the result ports in the order of `RES` (R66). -/
def resultWidths (z : Sizes) : List Nat := [3, 1, 1, z.W, z.W]

/-- The values of the result ports in the same order (R66). -/
def ResultRegs.values (r : ResultRegs) : List Nat := [r.status.toNat, r.flag.toNat, r.infr.toNat, r.xr, r.yr]

theorem State.resFrame_eq_concat (z : Sizes) (s : State) :
    s.resFrame z = concat (resultWidths z) s.result.values := by
  simp only [resultWidths, ResultRegs.values, concat, pow_one, Nat.mul_zero, Nat.add_zero]
  rfl

theorem ResultRegs.values_fit {z : Sizes} {r : ResultRegs} (hx : r.xr < 2 ^ z.W) (hy : r.yr < 2 ^ z.W) :
    FitWidths (resultWidths z) r.values :=
  .cons r.status.isLt <| .cons r.flag.toNat_lt <| .cons r.infr.toNat_lt <| .cons hx <| .cons hy .nil

/-- Settles O60: `RES` is a concatenation of ports that fit, so its fields are the ports. -/
theorem resultFrameFields : Obligations.ResultFrameFields := by
  refine ⟨fun s => ?_, fun z s hs => ?_⟩
  · cases hp : s.phase <;> simp [hp]
  · obtain ⟨-, hx, hy, -⟩ := hs
    have hfit := ResultRegs.values_fit hx hy
    have hlt := concat_lt_two_pow hfit
    have hfields := fieldsFrom_concat hfit
    rw [← State.resFrame_eq_concat] at hlt hfields
    simp only [resultWidths, ResultRegs.values, fieldsFrom, List.cons.injEq, and_true, Nat.zero_add] at hfields
    obtain ⟨hstatus, hflag, hinfr, hxr, hyr⟩ := hfields
    have hsum : (resultWidths z).sum = 2 * z.W + 5 := by
      simp only [resultWidths, List.sum_cons, List.sum_nil]
      omega
    refine ⟨hsum ▸ hlt, ?_, ?_, ?_, ?_, ?_⟩
    · rwa [field, pow_zero, Nat.div_one] at hstatus
    · rw [← field_one_beq_one, hflag, toNat_beq_one, State.outputs_flag]
    · rw [← field_one_beq_one, hinfr, toNat_beq_one, State.outputs_infr]
    · exact hxr
    · rw [Nat.add_comm]
      exact hyr

end Sys2Proof.Machine
end

section
/-! PROOFS. The chord and the tangent formula over the integers modulo `p` (spec/42_point_add.md R90, R91;
spec/43_point_double.md R104). -/

namespace Sys2Proof.Machine

section formulas
variable {p : Nat}

/-- Where `x1 - x0` has an inverse the chord formula answers R90's point for it. -/
theorem exists_chord_eq_ok {x0 y0 x1 y1 : Nat} {u : ZMod p} (hp : 2 ≤ p) (hu : u * (x1 - x0) = 1) :
    ∃ xr yr, chord p x0 y0 x1 y1 = .ok (.aff xr yr) ∧ xr < p ∧ yr < p ∧
      (xr : ZMod p) = ((y1 - y0) * u) ^ 2 - x0 - x1 ∧ (yr : ZMod p) = (y1 - y0) * u * (x0 - xr) - y0 := by
  have : NeZero p := ⟨by omega⟩
  let X : ZMod p := ((y1 - y0) * u) ^ 2 - x0 - x1
  let Y : ZMod p := (y1 - y0) * u * (x0 - X) - y0
  have hX : (X.val : ZMod p) = X := ZMod.natCast_zmod_val X
  have hY : (Y.val : ZMod p) = (y1 - y0) * u * (x0 - X.val) - y0 := by rw [ZMod.natCast_zmod_val, hX]
  exact ⟨X.val, Y.val, (chord_eq_ok_iff hp).2 ⟨X.val_lt, Y.val_lt, u, hu, hX, hY⟩, X.val_lt, Y.val_lt, hX, hY⟩

/-- Where `2 y` has an inverse the tangent formula answers R104's point for it. -/
theorem exists_tangent_eq_ok {a x y : Nat} {u : ZMod p} (hp : 2 ≤ p) (hu : u * (2 * y) = 1) :
    ∃ xr yr, tangent a p x y = .ok (.aff xr yr) ∧ xr < p ∧ yr < p ∧
      (xr : ZMod p) = ((3 * x ^ 2 + a) * u) ^ 2 - 2 * x ∧ (yr : ZMod p) = (3 * x ^ 2 + a) * u * (x - xr) - y := by
  have hpos : 0 < p := by omega
  obtain ⟨n, hn, rfl⟩ := exists_invm_eq_ok (v := mulm p 2 y) hp (by rwa [mulm_cast, Nat.cast_ofNat])
  obtain ⟨e, hinv, -⟩ | ⟨m, lam, xr, yr, hinv, rfl, hxr, hyr, ht⟩ := tangent_cases a p x y
  · exact absurd (hn.symm.trans hinv) nofun
  · obtain rfl : n = m := Except.ok.inj (hn.symm.trans hinv)
    have hxcast : (xr : ZMod p) = ((3 * x ^ 2 + a) * n) ^ 2 - 2 * x := by
      simp only [hxr, subm_cast _ _ hpos, mulm_cast, addm_cast, Nat.cast_ofNat, sq]
    have hycast : (yr : ZMod p) = (3 * x ^ 2 + a) * n * (x - xr) - y := by
      simp only [hyr, subm_cast _ _ hpos, mulm_cast, addm_cast, Nat.cast_ofNat, sq]
    exact ⟨xr, yr, ht, hxr ▸ subm_lt _ _ hpos, hyr ▸ subm_lt _ _ hpos, hxcast, hycast⟩

/-- Finite points that are neither equal nor inverse are added by the chord formula (R86 case 5). -/
theorem padd_eq_chord {x0 y0 x1 y1 : Nat} (h : ¬ (x0 = x1 ∧ (y1 = y0 ∨ y1 = (p - y0) % p))) :
    padd p (.aff x0 y0) (.aff x1 y1) = chord p x0 y0 x1 y1 := by
  have hinverse : ¬ (x0 = x1 ∧ y1 = (p - y0) % p ∧ y1 ≠ y0) := fun ⟨hx, hneg, _⟩ => h ⟨hx, .inr hneg⟩
  have hequal : ¬ (x0 = x1 ∧ y0 = y1) := fun ⟨hx, hy⟩ => h ⟨hx, .inl hy.symm⟩
  rw [padd, if_neg hinverse, if_neg hequal]

/-- The chord formula fails where `x1 - x0` shares a factor with `p` (R91). -/
theorem chord_of_gcd_ne_one {x0 y0 x1 y1 : Nat} (hp : 2 ≤ p) (hgcd : Int.gcd ((x1 : Int) - x0) p ≠ 1) :
    chord p x0 y0 x1 y1 = .error .noInverse := by
  obtain ⟨-, -, hc⟩ | ⟨n, -, -, -, hinv, -⟩ := chord_cases p x0 y0 x1 y1
  · exact hc
  · have hn : (((x1 : Int) - x0 : Int) : ZMod p) * n = 1 := by
      have := ((invm_eq_ok_iff_zmod hp).1 hinv).2
      rw [subm_cast _ _ (by omega)] at this
      push_cast
      rw [mul_comm, this]
    have hcoprime : IsCoprime (p : Int) ((x1 : Int) - x0) :=
      (ZMod.coe_int_isUnit_iff_isCoprime _ _).1 (IsUnit.of_mul_eq_one _ hn)
    exact absurd (Int.isCoprime_iff_gcd_eq_one.1 hcoprime.symm) hgcd

end formulas

/-- Settles O24: case 5 of R86, the formula's inverse being the integer `u` modulo `p`. -/
theorem paddChordFormula : Obligations.PaddChordFormula := by
  intro o s u lam hp hf0 hf1 hx0 hy0 hx1 hy1 hother hu hlam
  have hP0 : pt0 o = .aff o.x0 o.y0 := pt0_of_finite hf0
  have hP1 : pt1 o = .aff o.x1 o.y1 := pt1_of_finite hf1
  have hu' : (u : ZMod o.p) * (o.x1 - o.x0) = 1 := by simpa using (ZMod.intCast_eq_intCast_iff _ _ _).2 hu
  obtain ⟨xr, yr, hchord, hxr, hyr, hX, hY⟩ := exists_chord_eq_ok (y0 := o.y0) (y1 := o.y1) hp hu'
  have hpadd : padd o.p (pt0 o) (pt1 o) = .ok (.aff xr yr) := by rw [hP0, hP1, padd_eq_chord hother, hchord]
  refine ⟨xr, yr, exec_padd_of_ok s hp ?_ ?_ hpadd, hxr, hyr, ?_, ?_⟩
  · rw [hP0]; exact Point.inRange_aff.2 ⟨hx0, hy0⟩
  · rw [hP1]; exact Point.inRange_aff.2 ⟨hx1, hy1⟩
  · rw [← ZMod.intCast_eq_intCast_iff, hlam]
    push_cast
    exact hX
  · rw [← ZMod.intCast_eq_intCast_iff, hlam]
    push_cast
    exact hY

/-- Settles O25: case 5 of R86 without an inverse. -/
theorem paddWithoutInverseFails : Obligations.PaddWithoutInverseFails := by
  intro o s hp hf0 hf1 hx0 hy0 hx1 hy1 hother hgcd
  have hP0 : pt0 o = .aff o.x0 o.y0 := pt0_of_finite hf0
  have hP1 : pt1 o = .aff o.x1 o.y1 := pt1_of_finite hf1
  refine exec_padd_of_error s hp ?_ ?_ (e := .noInverse) ?_
  · rw [hP0]; exact Point.inRange_aff.2 ⟨hx0, hy0⟩
  · rw [hP1]; exact Point.inRange_aff.2 ⟨hx1, hy1⟩
  · rw [hP0, hP1, padd_eq_chord hother, chord_of_gcd_ne_one hp hgcd]

/-- Settles O29: case 3 of R101, the formula's inverse being the integer `u` modulo `p`. -/
theorem pdblTangentFormula : Obligations.PdblTangentFormula := by
  intro o s u lam hp hfin hx hlt hy hu hlam
  have hP : pt0 o = .aff o.x0 o.y0 := pt0_of_finite hfin
  have hu' : (u : ZMod o.p) * (2 * o.y0) = 1 := by simpa using (ZMod.intCast_eq_intCast_iff _ _ _).2 hu
  obtain ⟨xr, yr, htangent, hxr, hyr, hX, hY⟩ := exists_tangent_eq_ok (a := o.a) (x := o.x0) hp hu'
  have hpdbl : pdbl o.a o.p (pt0 o) = .ok (.aff xr yr) := by rw [hP, pdbl_of_ne_zero _ _ _ hy, htangent]
  refine ⟨xr, yr, exec_pdbl_of_ok s hp ?_ hpdbl, hxr, hyr, ?_, ?_⟩
  · rw [hP]; exact Point.inRange_aff.2 ⟨hx, hlt⟩
  · rw [← ZMod.intCast_eq_intCast_iff, hlam]
    push_cast
    exact hX
  · rw [← ZMod.intCast_eq_intCast_iff, hlam]
    push_cast
    exact hY

end Sys2Proof.Machine
end

section
/-! PROOFS. For valid inputs the operations are those of the curve's group (spec/00_scope.md glossary, "valid inputs";
log entry 13): what a point of the unit stands for, and what addition and doubling do to it. -/

namespace Sys2Proof.Machine

open WeierstrassCurve.Affine

section points
variable {p a b : Nat}

/-! ## The curve -/

theorem curve_equation_iff (x y : ZMod p) : (curve p a b).Equation x y ↔ y ^ 2 = x ^ 3 + a * x + b := by
  simp [equation_iff, curve]

@[simp] theorem curve_negY (x y : ZMod p) : (curve p a b).negY x y = -y := by simp [negY, curve]

@[simp] theorem curve_addX (x x' l : ZMod p) : (curve p a b).addX x x' l = l ^ 2 - x - x' := by simp [addX, curve]

@[simp] theorem curve_addY (x x' y l : ZMod p) :
    (curve p a b).addY x x' y l = l * (x - (curve p a b).addX x x' l) - y := by
  simp only [addY, negAddY, curve_negY]
  ring

/-- The discriminant of the curve is `-16` times that of "valid inputs". -/
theorem curve_discriminant : (curve p a b).Δ = -16 * ((4 * a ^ 3 + 27 * b ^ 2 : Nat) : ZMod p) := by
  simp only [WeierstrassCurve.Δ, WeierstrassCurve.b₂, WeierstrassCurve.b₄, WeierstrassCurve.b₆, WeierstrassCurve.b₈,
    curve]
  push_cast
  ring

/-! ## The point of the unit that stands for a point of the group -/

theorem represents_inf_iff {g : (curve p a b).Point} : Represents p a b .inf g ↔ g = 0 := Iff.rfl

theorem represents_some {x y : Nat} {X Y : ZMod p} (hx : x < p) (hy : y < p) (hX : (x : ZMod p) = X)
    (hY : (y : ZMod p) = Y) (h : (curve p a b).Nonsingular X Y) : Represents p a b (.aff x y) (.some X Y h) := by
  subst hX hY
  exact ⟨hx, hy, h, rfl⟩

theorem Represents.inRange {P : Point} {g : (curve p a b).Point} (h : Represents p a b P g) : P.inRange p = true := by
  cases P with
  | inf => rfl
  | aff x y =>
    obtain ⟨hx, hy, -⟩ := h
    exact Point.inRange_aff.2 ⟨hx, hy⟩

/-- A point of the unit stands for one point of the group at most. -/
theorem Represents.group_unique {P : Point} {g h : (curve p a b).Point} (hg : Represents p a b P g)
    (hh : Represents p a b P h) : g = h := by
  cases P with
  | inf => exact (represents_inf_iff.1 hg).trans (represents_inf_iff.1 hh).symm
  | aff x y =>
    obtain ⟨-, -, -, rfl⟩ := hg
    obtain ⟨-, -, -, rfl⟩ := hh
    rfl

/-- A point of the group has one point of the unit that stands for it. -/
theorem Represents.point_unique {P Q : Point} {g : (curve p a b).Point} (hP : Represents p a b P g)
    (hQ : Represents p a b Q g) : P = Q := by
  cases P with
  | inf =>
    obtain rfl := represents_inf_iff.1 hP
    cases Q with
    | inf => rfl
    | aff x y =>
      obtain ⟨-, -, h, heq⟩ := hQ
      exact absurd heq.symm (Point.some_ne_zero h)
  | aff x y =>
    obtain ⟨hx, hy, h, rfl⟩ := hP
    cases Q with
    | inf => exact absurd (represents_inf_iff.1 hQ) (Point.some_ne_zero h)
    | aff x' y' =>
      obtain ⟨hx', hy', h', heq⟩ := hQ
      obtain ⟨hX, hY⟩ := Point.some.inj heq
      rw [(natCast_zmod_inj hx hx').1 hX, (natCast_zmod_inj hy hy').1 hY]

end points

/-! ## The operations -/

section group
variable {p a b : Nat} [Fact p.Prime]

theorem two_ne_zero_of_odd (hodd : p ≠ 2) : (2 : ZMod p) ≠ 0 := by
  intro h
  have hdvd : p ∣ 2 := (ZMod.natCast_eq_zero_iff 2 p).1 (by exact_mod_cast h)
  exact hodd ((Nat.prime_dvd_prime_iff_eq (Fact.out : p.Prime) Nat.prime_two).1 hdvd)

/-- Over an odd prime every solution of a valid curve's equation is a point of the group. -/
theorem curve_nonsingular_iff (hodd : p ≠ 2) (hns : NonSingular p a b) (x y : ZMod p) :
    (curve p a b).Nonsingular x y ↔ y ^ 2 = x ^ 3 + a * x + b := by
  have hd : ((4 * a ^ 3 + 27 * b ^ 2 : Nat) : ZMod p) ≠ 0 := by
    rwa [Ne, ZMod.natCast_eq_zero_iff, Nat.dvd_iff_mod_eq_zero]
  have hsixteen : (-16 : ZMod p) ≠ 0 := by
    have : (-16 : ZMod p) = -2 ^ 4 := by norm_num
    rw [this]
    exact neg_ne_zero.2 (pow_ne_zero 4 (two_ne_zero_of_odd hodd))
  have hΔ : (curve p a b).Δ ≠ 0 := by
    rw [curve_discriminant]
    exact mul_ne_zero hsixteen hd
  rw [← curve_equation_iff, equation_iff_nonsingular_of_Δ_ne_zero hΔ]

/-- Addition of points that stand for group points, not the same finite one, answers the point that stands for their
sum (R86). -/
theorem padd_represents {P Q : Point} {g h : (curve p a b).Point} (hP : Represents p a b P g)
    (hQ : Represents p a b Q h) (hne : P = Q → P = .inf) :
    ∃ R, padd p P Q = .ok R ∧ Represents p a b R (g + h) := by
  cases P with
  | inf =>
    obtain rfl := represents_inf_iff.1 hP
    exact ⟨Q, padd_inf_left p Q, by rwa [zero_add]⟩
  | aff x0 y0 =>
    cases Q with
    | inf =>
      obtain rfl := represents_inf_iff.1 hQ
      exact ⟨.aff x0 y0, padd_inf_right p _, by rwa [add_zero]⟩
    | aff x1 y1 =>
      obtain ⟨hx0, hy0, h0, rfl⟩ := hP
      obtain ⟨hx1, hy1, h1, rfl⟩ := hQ
      by_cases hx : x0 = x1
      · subst hx
        have hy : y1 ≠ y0 := by
          rintro rfl
          exact absurd (hne rfl) nofun
        have hneg : (y0 : ZMod p) = (curve p a b).negY x0 y1 :=
          (Y_eq_of_X_eq h0.1 h1.1 rfl).resolve_left fun heq => hy ((natCast_zmod_inj hy0 hy1).1 heq).symm
        have hmod : y1 = (p - y0) % p := by
          rw [eq_neg_mod_iff hy0 hy1, hneg, curve_negY, neg_add_cancel]
        exact ⟨.inf, padd_inverse p x0 hmod hy, represents_inf_iff.2 (Point.add_of_Y_eq rfl hneg)⟩
      · have hX : (x0 : ZMod p) ≠ x1 := fun heq => hx ((natCast_zmod_inj hx0 hx1).1 heq)
        obtain ⟨xr, yr, hchord, hxr, hyr, hXr, hYr⟩ := exists_chord_eq_ok (y0 := y0) (y1 := y1)
          (Nat.Prime.two_le Fact.out) (inv_mul_cancel₀ (sub_ne_zero.2 hX.symm))
        have hslope : (curve p a b).slope x0 x1 y0 y1 = (y1 - y0) * ((x1 : ZMod p) - x0)⁻¹ := by
          rw [slope_of_X_ne hX, ← neg_sub (y1 : ZMod p), ← neg_sub (x1 : ZMod p), neg_div_neg_eq, div_eq_mul_inv]
        refine ⟨.aff xr yr, by rw [padd_eq_chord fun heq => hx heq.1, hchord], ?_⟩
        rw [Point.add_of_X_ne hX]
        have hXadd : (xr : ZMod p) = (curve p a b).addX x0 x1 ((curve p a b).slope x0 x1 y0 y1) := by
          rw [hXr, curve_addX, hslope]
        refine represents_some hxr hyr hXadd ?_ _
        rw [curve_addY, ← hXadd, hYr, hslope]

/-- Over an odd prime the finite points that are their own negative are those with `y = 0` (R103). -/
theorem represents_self_neg_iff {x y : Nat} {g : (curve p a b).Point} (hodd : p ≠ 2)
    (hg : Represents p a b (.aff x y) g) : g ≠ 0 ∧ -g = g ↔ y = 0 := by
  obtain ⟨-, hy, h, rfl⟩ := hg
  have hpos : 0 < p := Nat.Prime.pos Fact.out
  have hneg : -Point.some _ _ h = Point.some _ _ h ↔ -(y : ZMod p) = y := by
    simp only [Point.neg_some, Point.some.injEq, curve_negY, true_and]
  have hself : -(y : ZMod p) = y ↔ 2 * (y : ZMod p) = 0 := by
    rw [neg_eq_iff_add_eq_zero, two_mul]
  have hzero : (y : ZMod p) = 0 ↔ y = 0 := by simpa using natCast_zmod_inj hy hpos
  rw [and_iff_right (Point.some_ne_zero h), hneg, hself, mul_eq_zero, or_iff_right (two_ne_zero_of_odd hodd), hzero]

/-- Doubling of a point that stands for a group point answers the point that stands for its double, but for a finite
point that is its own negative (R101). -/
theorem pdbl_represents {P : Point} {g : (curve p a b).Point} (hodd : p ≠ 2) (hP : Represents p a b P g)
    (hself : ¬ (g ≠ 0 ∧ -g = g)) : ∃ R, pdbl a p P = .ok R ∧ Represents p a b R (g + g) := by
  cases P with
  | inf =>
    obtain rfl := represents_inf_iff.1 hP
    exact ⟨.inf, pdbl_inf a p, by rwa [zero_add]⟩
  | aff x y =>
    have hy : y ≠ 0 := fun h => hself ((represents_self_neg_iff hodd hP).2 h)
    obtain ⟨hx, hlt, h, rfl⟩ := hP
    have hpos : 0 < p := by omega
    have hY : (y : ZMod p) ≠ 0 := fun heq => hy ((natCast_zmod_inj hlt hpos).1 (by simpa using heq))
    have hdouble : (2 * y : ZMod p) ≠ 0 := mul_ne_zero (two_ne_zero_of_odd hodd) hY
    have hne : (y : ZMod p) ≠ (curve p a b).negY x y := by
      rw [curve_negY, Ne, eq_neg_iff_add_eq_zero, ← two_mul]
      exact hdouble
    obtain ⟨xr, yr, htangent, hxr, hyr, hXr, hYr⟩ := exists_tangent_eq_ok (a := a) (x := x)
      (Nat.Prime.two_le Fact.out) (inv_mul_cancel₀ hdouble)
    have hslope : (curve p a b).slope x x y y = (3 * x ^ 2 + a) * (2 * y : ZMod p)⁻¹ := by
      rw [slope_of_Y_ne rfl hne, curve_negY, sub_neg_eq_add, ← two_mul, div_eq_mul_inv]
      simp [curve]
    refine ⟨.aff xr yr, by rw [pdbl_of_ne_zero a p x hy, htangent], ?_⟩
    rw [Point.add_self_of_Y_ne hne]
    have hXadd : (xr : ZMod p) = (curve p a b).addX x x ((curve p a b).slope x x y y) := by
      rw [hXr, curve_addX, hslope]
      ring
    refine represents_some hxr hyr hXadd ?_ _
    rw [curve_addY, ← hXadd, hYr, hslope]

/-- Over an odd prime a finite point that is its own negative has no double in the unit's eyes (R103). -/
theorem pdbl_of_self_neg {P : Point} {g : (curve p a b).Point} (hodd : p ≠ 2) (hP : Represents p a b P g)
    (hself : g ≠ 0 ∧ -g = g) : pdbl a p P = .error .zeroY := by
  cases P with
  | inf => exact absurd (represents_inf_iff.1 hP) hself.1
  | aff x y =>
    obtain rfl := (represents_self_neg_iff hodd hP).1 hself
    exact pdbl_zero_y a p x

end group

/-- Settles O21: over an odd prime the congruence says that the point is on the group's curve. -/
theorem oncurveDecidesGroupMembership : Obligations.OncurveDecidesGroupMembership := by
  intro o _ s hodd hns hfin hx hy
  have hP : pt0 o = .aff o.x0 o.y0 := pt0_of_finite hfin
  have hexec := exec_oncurve s (Nat.Prime.two_le Fact.out) (by rw [hP]; exact Point.inRange_aff.2 ⟨hx, hy⟩)
  refine ⟨_, hexec, ?_⟩
  have hcast : o.y0 ^ 2 ≡ o.x0 ^ 3 + o.a * o.x0 + o.b [MOD o.p] ↔
      (o.y0 : ZMod o.p) ^ 2 = (o.x0 : ZMod o.p) ^ 3 + o.a * o.x0 + o.b := by
    rw [← ZMod.natCast_eq_natCast_iff]
    push_cast
    rfl
  rw [hP, oncurve_aff_iff, hcast, ← curve_nonsingular_iff hodd hns]
  exact ⟨fun h => ⟨_, hx, hy, h, rfl⟩, fun ⟨_, _, _, h, _⟩ => h⟩

/-- Settles O27: each case of R86 is one of the group law's. -/
theorem paddIsGroupAddition : Obligations.PaddIsGroupAddition := by
  intro o _ s g h _ hg hh hne
  obtain ⟨R, hpadd, hR⟩ := padd_represents hg hh hne
  exact ⟨R, exec_padd_of_ok s (Nat.Prime.two_le Fact.out) hg.inRange hh.inRange hpadd, hR⟩

/-- Settles O31: each case of R101 is one of the group law's, or a point of order 2. -/
theorem pdblIsGroupDoubling : Obligations.PdblIsGroupDoubling := by
  intro o _ s g hodd _ hg
  refine ⟨fun hself => ?_, fun hself => ?_⟩
  · obtain ⟨R, hpdbl, hR⟩ := pdbl_represents hodd hg hself
    exact ⟨R, exec_pdbl_of_ok s (Nat.Prime.two_le Fact.out) hg.inRange hpdbl, hR⟩
  · exact exec_pdbl_of_error s (Nat.Prime.two_le Fact.out) hg.inRange (pdbl_of_self_neg hodd hg hself)

end Sys2Proof.Machine
end

section
/-! PROOFS. What every command can answer, from the command and the working registers alone, and what it leaves as it was
(spec/10_state.md R28, R33, R34; spec/60_exceptions.md R140 to R147). -/

namespace Sys2Proof.Machine

/-! ## The execution behind a command -/

/-- From every state with the working registers `w` the command `i` ends with the result registers `r`, after the
sub-operations `ls`. -/
def Answers (i : Instr) (w : WorkRegs) (r : ResultRegs) (ls : List SubOp) : Prop :=
  ∀ s : State, s.work = w → exec i s = .next (s.doneWith r ls)

/-- The working registers with which an execution of `SMDAA` or `SMLAD` goes on (R36, log entry 12). -/
def loaded (i : Instr) (w : WorkRegs) : WorkRegs := w.load (pt0 i.operands) i.operands.k

/-- The points that a command which yields a point reads, and its execution past the prechecks. -/
def pointRun (i : Instr) (w : WorkRegs) : Option (List Point × Traced Point) :=
  let v := loaded i w
  match i with
  | .padd o => some ([pt0 o, pt1 o], addStep o.p (pt0 o) (pt1 o))
  | .pdbl o => some ([pt0 o], doubleStep o.a o.p (pt0 o))
  | .smdaa o => some ([pt0 o], daaLoop o.a o.p o.k (v.n - v.idx) v.idx v.t0 v.t1)
  | .smlad o => some ([pt0 o], ladLoop o.a o.p o.k (v.n - v.idx) v.t0 v.t1)
  | .oncurve _ => none
  | .reserved0 _ => none
  | .reserved6 _ => none
  | .reserved7 _ => none

theorem exec_of_pointRun {i : Instr} {s : State} {reads : List Point} {r : Traced Point}
    (h : pointRun i s.work = some (reads, r)) :
    exec i s = prechecked i.operands.p reads s (.next (s.completePoint r)) := by
  cases i <;> cases h <;> rfl

theorem prechecked_of_some {p : Nat} {reads : List Point} {e : FailKind} (h : precheck p reads = some e) (s : State)
    (body : StepOutcome) : prechecked p reads s body = .next (s.doneWith (failureResult e.code) []) := by
  rw [prechecked, h]
  rfl

theorem completePoint_of_ok {r : Traced Point} {R : Point} (h : r.out = .ok R) (s : State) :
    s.completePoint r = s.doneWith (pointResult R) r.letters := by
  rw [State.completePoint_eq_complete, State.complete_eq_doneWith, Traced.outcome_result_ok h]

theorem completePoint_of_error {r : Traced Point} {e : FailKind} (h : r.out = .error e) (s : State) :
    s.completePoint r = s.doneWith (failureResult e.code) r.letters := by
  rw [State.completePoint_eq_complete, State.complete_eq_doneWith, Traced.outcome_result_error h]

/-- The command ends with a failure. -/
def Fails (i : Instr) (w : WorkRegs) : Prop := ∃ (e : FailKind) (ls : List SubOp), Answers i w (failureResult e.code) ls

/-- The command is `ONCURVE` and ends with a boolean, after no sub-operation. -/
def ShowsBool (i : Instr) (w : WorkRegs) : Prop := ∃ o v, i = .oncurve o ∧ Answers i w (boolResult v) []

/-- The command has passed its prechecks and ends with the point of its execution. -/
def ShowsPoint (i : Instr) (w : WorkRegs) : Prop :=
  ∃ reads r R, pointRun i w = some (reads, r) ∧ 2 ≤ i.operands.p ∧
    (∀ pt ∈ reads, pt.inRange i.operands.p = true) ∧ r.out = .ok R ∧ Answers i w (pointResult R) r.letters

theorem pointRun_outcomes {i : Instr} {w : WorkRegs} {reads : List Point} {r : Traced Point}
    (h : pointRun i w = some (reads, r)) : Fails i w ∨ ShowsBool i w ∨ ShowsPoint i w := by
  cases hpre : precheck i.operands.p reads with
  | some e =>
    refine .inl ⟨e, [], ?_⟩
    rintro s rfl
    rw [exec_of_pointRun h, prechecked_of_some hpre]
  | none =>
    obtain ⟨hp, hin⟩ := precheck_eq_none_iff.1 hpre
    cases hout : r.out with
    | error e =>
      refine .inl ⟨e, r.letters, ?_⟩
      rintro s rfl
      rw [exec_of_pointRun h, prechecked_of_pass s _ hp hin, completePoint_of_error hout]
    | ok R =>
      refine .inr (.inr ⟨reads, r, R, h, hp, hin, hout, ?_⟩)
      rintro s rfl
      rw [exec_of_pointRun h, prechecked_of_pass s _ hp hin, completePoint_of_ok hout]

theorem oncurve_outcomes (o : Operands) (w : WorkRegs) : Fails (.oncurve o) w ∨ ShowsBool (.oncurve o) w := by
  cases hpre : precheck o.p [pt0 o] with
  | some e => exact .inl ⟨e, [], fun s _ => prechecked_of_some hpre s _⟩
  | none =>
    obtain ⟨hp, hin⟩ := precheck_eq_none_iff.1 hpre
    exact .inr ⟨o, _, rfl, fun s _ => exec_oncurve s hp (hin _ List.mem_cons_self)⟩

/-- Everything a command can answer (R19, R34, R141). -/
theorem exec_outcomes (i : Instr) (w : WorkRegs) : Fails i w ∨ ShowsBool i w ∨ ShowsPoint i w := by
  have hillegal {i : Instr} (h : ∀ s, exec i s = illegal s) : Fails i w :=
    ⟨.illegalOp, [], fun s _ => (h s).trans (illegal_eq_doneWith s)⟩
  cases i with
  | oncurve o => exact (oncurve_outcomes o w).imp_right .inl
  | padd o => exact pointRun_outcomes rfl
  | pdbl o => exact pointRun_outcomes rfl
  | smdaa o => exact pointRun_outcomes rfl
  | smlad o => exact pointRun_outcomes rfl
  | reserved0 o => exact .inl (hillegal fun _ => rfl)
  | reserved6 o => exact .inl (hillegal fun _ => rfl)
  | reserved7 o => exact .inl (hillegal fun _ => rfl)

/-- A command's answer depends on the working registers alone. -/
theorem exists_answers (i : Instr) (w : WorkRegs) : ∃ r ls, Answers i w r ls := by
  obtain ⟨e, ls, h⟩ | ⟨o, v, -, h⟩ | ⟨reads, r, R, -, -, -, -, h⟩ := exec_outcomes i w
  · exact ⟨_, _, h⟩
  · exact ⟨_, _, h⟩
  · exact ⟨_, _, h⟩

theorem Answers.next_eq {i : Instr} {s t : State} {r : ResultRegs} {ls : List SubOp} (h : Answers i s.work r ls)
    (hexec : exec i s = .next t) : t = s.doneWith r ls :=
  (Host.Outcome.next.inj ((h s rfl).symm.trans hexec)).symm

/-- No failure has the status of success (R140). -/
theorem failureResult_status_ne_zero (e : FailKind) : (failureResult e.code).status ≠ 0 := e.code_ne.1

@[simp] theorem pointResult_status (R : Point) : (pointResult R).status = 0 := by cases R <;> rfl
@[simp] theorem pointResult_flag (R : Point) : (pointResult R).flag = false := by cases R <;> rfl

/-- A command that yields a point and ends with `STATUS 0` has run its execution to the end. -/
theorem pointRun_of_success {i : Instr} {s t : State} {reads : List Point} {r : Traced Point}
    (hrun : pointRun i s.work = some (reads, r)) (hexec : exec i s = .next t) (hstatus : t.result.status = 0) :
    ∃ R, r.out = .ok R ∧ t = s.doneWith (pointResult R) r.letters := by
  obtain ⟨e, ls, h⟩ | ⟨o, v, rfl, -⟩ | ⟨reads', r', R, hrun', -, -, hout, h⟩ := exec_outcomes i s.work
  · rw [h.next_eq hexec] at hstatus
    exact absurd hstatus (failureResult_status_ne_zero e)
  · cases hrun
  · cases hrun.symm.trans hrun'
    exact ⟨R, hout, h.next_eq hexec⟩

/-- Settles O47: a command has an answer from every state. -/
theorem everyCommandKeepsItsOperands : Obligations.EveryCommandKeepsItsOperands := by
  intro i s
  obtain ⟨r, ls, h⟩ := exists_answers i s.work
  exact ⟨r, ls, h s rfl⟩

/-- Only the commands that yield a point have an execution with a point. -/
theorem pointRun_isSome {i : Instr} {w : WorkRegs} {reads : List Point} {r : Traced Point}
    (h : pointRun i w = some (reads, r)) : ∃ o, i = .padd o ∨ i = .pdbl o ∨ i = .smdaa o ∨ i = .smlad o := by
  cases i with
  | padd o => exact ⟨o, .inl rfl⟩
  | pdbl o => exact ⟨o, .inr (.inl rfl)⟩
  | smdaa o => exact ⟨o, .inr (.inr (.inl rfl))⟩
  | smlad o => exact ⟨o, .inr (.inr (.inr rfl))⟩
  | oncurve o => cases h
  | reserved0 o => cases h
  | reserved6 o => cases h
  | reserved7 o => cases h

/-- Settles O48: a failure shows no flag, a boolean sets `FLAG` alone, a point `INFR` alone. -/
theorem flagsAreSetOnlyByTheirCommands : Obligations.FlagsAreSetOnlyByTheirCommands := by
  intro i s t hexec
  obtain ⟨e, ls, h⟩ | ⟨o, v, hi, h⟩ | ⟨reads, r, R, hrun, -, -, -, h⟩ := exec_outcomes i s.work
  · rw [h.next_eq hexec]
    exact ⟨nofun, nofun⟩
  · rw [h.next_eq hexec]
    exact ⟨fun _ => ⟨rfl, o, hi⟩, nofun⟩
  · rw [h.next_eq hexec]
    exact ⟨fun hflag => absurd ((pointResult_flag R).symm.trans hflag) nofun,
      fun _ => ⟨pointResult_status R, pointRun_isSome hrun⟩⟩

/-! ## Failures -/

/-- Settles O19: past the prechecks only an operation can fail. -/
theorem precheckedCommandsFailOnlyInTheirOperation : Obligations.PrecheckedCommandsFailOnlyInTheirOperation := by
  intro o s t i hp h0 h1 hi hexec
  have hin0 : ∀ pt ∈ [pt0 o], pt.inRange o.p = true := List.forall_mem_singleton.2 h0
  have hin01 : ∀ pt ∈ [pt0 o, pt1 o], pt.inRange o.p = true :=
    List.forall_mem_cons.2 ⟨h0, List.forall_mem_singleton.2 h1⟩
  obtain rfl | rfl | rfl | rfl | rfl := hi
  · exact (oncurve_runsAfterPrechecks o).operationStatus_of_pass hp hin0 hexec
  · exact (padd_runsAfterPrechecks o).operationStatus_of_pass hp hin01 hexec
  · exact (pdbl_runsAfterPrechecks o).operationStatus_of_pass hp hin0 hexec
  · exact (smdaa_runsAfterPrechecks o).operationStatus_of_pass hp hin0 hexec
  · exact (smlad_runsAfterPrechecks o).operationStatus_of_pass hp hin0 hexec

/-- Settles O59: the codes as the table of R140 gives them. -/
theorem statusCodesOfTheFailureKinds : Obligations.StatusCodesOfTheFailureKinds := ⟨rfl, rfl, rfl, rfl, rfl, rfl⟩

/-! ## Fields without effect -/

/-- Settles O51: an infinity operand is the same point whatever its coordinate fields hold (R59). -/
theorem infinityOperandHidesItsCoordinates : Obligations.InfinityOperandHidesItsCoordinates := by
  intro o x y s
  refine ⟨fun hinf => ?_, fun hinf => ?_⟩
  · have h0 : pt0 { o with x0 := x, y0 := y } = pt0 o := by rw [pt0_of_inf hinf, pt0_of_inf (by exact hinf)]
    exact ⟨exec_oncurve_congr s rfl rfl rfl h0, exec_padd_congr s rfl h0 rfl, exec_pdbl_congr s rfl rfl h0,
      exec_smdaa_congr s rfl rfl h0 rfl, exec_smlad_congr s rfl rfl h0 rfl⟩
  · have h1 : pt1 { o with x1 := x, y1 := y } = pt1 o := by rw [pt1_of_inf hinf, pt1_of_inf (by exact hinf)]
    exact exec_padd_congr s rfl rfl h1

/-! ## The coefficients modulo `p` -/

section coefficients
variable (a b p : Nat)

theorem addm_mod_right (u v : Nat) : addm p u (v % p) = addm p u v := Nat.add_mod_mod u v p

theorem mulm_mod_left (u v : Nat) : mulm p (u % p) v = mulm p u v := Nat.mod_mul_mod u v p

/-- The on-curve predicate takes the coefficients modulo `p` (R14). -/
theorem oncurve_mod (P0 : Point) : oncurve (a % p) (b % p) p P0 = oncurve a b p P0 := by
  cases P0 with
  | inf => rfl
  | aff x y => simp only [oncurve, mulm_mod_left, addm_mod_right]

/-- A doubling takes the coefficient `a` modulo `p` (R14). -/
theorem pdbl_mod (P0 : Point) : pdbl (a % p) p P0 = pdbl a p P0 := by
  cases P0 with
  | inf => rfl
  | aff x y => simp only [pdbl, tangent, addm_mod_right]

theorem doubleStep_mod (P0 : Point) : doubleStep (a % p) p P0 = doubleStep a p P0 := by
  rw [doubleStep, doubleStep, pdbl_mod]

theorem daaStep_mod (Q T : Point) (bit : Nat) : daaStep (a % p) p Q T bit = daaStep a p Q T bit := by
  simp only [daaStep, acc, doubleStep_mod]

theorem ladStep_mod (R0 R1 : Point) (bit : Nat) : ladStep (a % p) p R0 R1 bit = ladStep a p R0 R1 bit := by
  simp only [ladStep, doubleStep_mod]

theorem daaLoop_mod (k count i : Nat) (Q T : Point) : daaLoop (a % p) p k count i Q T = daaLoop a p k count i Q T := by
  induction count generalizing i Q T with
  | zero => rfl
  | succ count ih => simp only [daaLoop, daaStep_mod, ih]

theorem ladLoop_mod (k count : Nat) (R0 R1 : Point) : ladLoop (a % p) p k count R0 R1 = ladLoop a p k count R0 R1 := by
  induction count generalizing R0 R1 with
  | zero => rfl
  | succ count ih => simp only [ladLoop, ladStep_mod, ih]

end coefficients

/-- Two commands whose executions past the prechecks are the same have the same effect. -/
theorem exec_eq_of_pointRun_eq {i i' : Instr} {s : State} {reads : List Point} {r : Traced Point}
    (hp : i'.operands.p = i.operands.p) (h' : pointRun i' s.work = some (reads, r))
    (h : pointRun i s.work = some (reads, r)) : exec i' s = exec i s := by
  rw [exec_of_pointRun h', exec_of_pointRun h, hp]

/-- Settles O50: the coefficients enter through a product or a sum modulo `p`. -/
theorem coefficientsActModuloP : Obligations.CoefficientsActModuloP := by
  intro o s
  refine ⟨?_, ?_, ?_, ?_⟩
  · exact congrArg (fun v => prechecked o.p [pt0 o] s (.next (s.complete [] (.bool v)))) (oncurve_mod o.a o.b o.p (pt0 o))
  · exact exec_eq_of_pointRun_eq rfl (congrArg (fun r => some (_, r)) (doubleStep_mod o.a o.p _)) rfl
  · exact exec_eq_of_pointRun_eq rfl (congrArg (fun r => some (_, r)) (daaLoop_mod o.a o.p o.k _ _ _ _)) rfl
  · exact exec_eq_of_pointRun_eq rfl (congrArg (fun r => some (_, r)) (ladLoop_mod o.a o.p o.k _ _ _)) rfl

end Sys2Proof.Machine
end

section
/-! PROOFS. One unit of progress: an iteration of the loop, after which the rest of the execution ends as the whole would
have, or the whole execution (spec/10_state.md R36; log entries 4 and 12). -/

namespace Sys2Proof.Machine

/-- The next iteration of a looping command, from its loaded working registers. -/
def iterationOf (i : Instr) (v : WorkRegs) : Option (Traced (Point × Point)) :=
  match i with
  | .smdaa o => some (daaStep o.a o.p v.t0 v.t1 (bit o.k v.idx))
  | .smlad o => some (ladStep o.a o.p v.t0 v.t1 (bit o.k (v.n - v.idx - 1)))
  | .oncurve _ => none
  | .padd _ => none
  | .pdbl _ => none
  | .reserved0 _ => none
  | .reserved6 _ => none
  | .reserved7 _ => none

/-- The working registers after an iteration that ends well. -/
def afterStep (v : WorkRegs) (R : Point × Point) : WorkRegs := { v with t0 := R.1, t1 := R.2, idx := v.idx + 1 }

@[simp] theorem afterStep_t0 (v : WorkRegs) (R : Point × Point) : (afterStep v R).t0 = R.1 := rfl
@[simp] theorem afterStep_t1 (v : WorkRegs) (R : Point × Point) : (afterStep v R).t1 = R.2 := rfl
@[simp] theorem afterStep_n (v : WorkRegs) (R : Point × Point) : (afterStep v R).n = v.n := rfl
@[simp] theorem afterStep_idx (v : WorkRegs) (R : Point × Point) : (afterStep v R).idx = v.idx + 1 := rfl

section loop
variable {i : Instr} {w : WorkRegs} {st : Traced (Point × Point)}

/-- A command without a loop has one unit of progress, the whole execution (R27). -/
theorem iterate_eq_exec_of_no_loop (h : iterationOf i (loaded i w) = none) (s : State) : iterate i s = exec i s := by
  cases i with
  | smdaa o => cases h
  | smlad o => cases h
  | oncurve o => rfl
  | padd o => rfl
  | pdbl o => rfl
  | reserved0 o => rfl
  | reserved6 o => rfl
  | reserved7 o => rfl

theorem iterate_of_iteration {s : State} (h : iterationOf i (loaded i s.work) = some st) :
    iterate i s = prechecked i.operands.p [pt0 i.operands] s (.next
      (if (loaded i s.work).n ≤ (loaded i s.work).idx then s.completePoint (Traced.pure (loaded i s.work).t0)
      else s.progress (loaded i s.work) st)) := by
  cases i <;> cases h <;> rfl

/-- With no iteration left the execution is at its end. -/
theorem pointRun_of_le (h : iterationOf i (loaded i w) = some st) (hle : (loaded i w).n ≤ (loaded i w).idx) :
    pointRun i w = some ([pt0 i.operands], Traced.pure (loaded i w).t0) := by
  have hzero : (loaded i w).n - (loaded i w).idx = 0 := Nat.sub_eq_zero_of_le hle
  cases i with
  | smdaa o => simp only [pointRun, hzero, daaLoop, Instr.operands]
  | smlad o => simp only [pointRun, hzero, ladLoop, Instr.operands]
  | _ => cases h

/-- Registers in use are not loaded again (log entry 12). -/
theorem loaded_afterStep (hlt : (loaded i w).idx < (loaded i w).n) (R : Point × Point) :
    loaded i (afterStep (loaded i w) R) = afterStep (loaded i w) R :=
  WorkRegs.load_of_ne _ _ _ (Nat.ne_of_gt (Nat.zero_lt_of_lt hlt))

/-- With iterations left the execution is the next one, then the execution from the registers it leaves. -/
theorem pointRun_of_lt (h : iterationOf i (loaded i w) = some st) (hlt : (loaded i w).idx < (loaded i w).n) :
    ∃ rest : Point × Point → Traced Point, pointRun i w = some ([pt0 i.operands], st.bind rest) ∧
      ∀ R, pointRun i (afterStep (loaded i w) R) = some ([pt0 i.operands], rest R) := by
  obtain ⟨c, hcount⟩ : ∃ c, (loaded i w).n - (loaded i w).idx = c + 1 := ⟨(loaded i w).n - (loaded i w).idx - 1, by omega⟩
  have hleft : (loaded i w).n - ((loaded i w).idx + 1) = c := by omega
  have hloaded := loaded_afterStep hlt
  cases i with
  | smdaa o =>
    cases h
    refine ⟨fun R => daaLoop o.a o.p o.k c ((loaded (.smdaa o) w).idx + 1) R.1 R.2, ?_, fun R => ?_⟩
    · simp only [pointRun, hcount, daaLoop, Instr.operands]
    · simp [pointRun, hloaded, hleft, Instr.operands]
  | smlad o =>
    cases h
    refine ⟨fun R => ladLoop o.a o.p o.k c R.1 R.2, ?_, fun R => ?_⟩
    · simp only [pointRun, hcount, ladLoop, Nat.add_sub_cancel, Instr.operands]
    · simp [pointRun, hloaded, hleft, Instr.operands]
  | _ => cases h

/-- An iteration that fails ends the command as its whole execution would. -/
theorem iterate_eq_exec_of_error {e : FailKind} (h : iterationOf i (loaded i w) = some st)
    (hlt : (loaded i w).idx < (loaded i w).n) (hout : st.out = .error e) {s : State} (hw : s.work = w) :
    iterate i s = exec i s := by
  subst hw
  obtain ⟨rest, hrun, -⟩ := pointRun_of_lt h hlt
  have hbody : s.progress (loaded i s.work) st = s.completePoint (st.bind rest) := by
    rw [Traced.bind_error hout, completePoint_of_error rfl, State.progress, hout]
    rfl
  rw [iterate_of_iteration h, exec_of_pointRun hrun, if_neg (Nat.not_le.2 hlt), hbody]

theorem iterate_eq_exec_of_le (h : iterationOf i (loaded i w) = some st)
    (hle : (loaded i w).n ≤ (loaded i w).idx) {s : State} (hw : s.work = w) : iterate i s = exec i s := by
  subst hw
  rw [iterate_of_iteration h, exec_of_pointRun (pointRun_of_le h hle), if_pos hle]

theorem iterate_eq_exec_of_precheck {e : FailKind} (h : iterationOf i (loaded i w) = some st)
    (hpre : precheck i.operands.p [pt0 i.operands] = some e) {s : State} (hw : s.work = w) :
    iterate i s = exec i s := by
  subst hw
  have hrun : ∃ r, pointRun i s.work = some ([pt0 i.operands], r) := by
    obtain hle | hlt := le_or_gt (loaded i s.work).n (loaded i s.work).idx
    · exact ⟨_, pointRun_of_le h hle⟩
    · obtain ⟨rest, hrun, -⟩ := pointRun_of_lt h hlt
      exact ⟨_, hrun⟩
  obtain ⟨r, hrun⟩ := hrun
  rw [iterate_of_iteration h, exec_of_pointRun hrun, prechecked_of_some hpre, prechecked_of_some hpre]

end loop

/-- One more iteration of the loop ends well, with the letters and points of `st`. -/
structure Iterates (i : Instr) (w : WorkRegs) (st : Traced (Point × Point)) (R : Point × Point) : Prop where
  iteration : iterationOf i (loaded i w) = some st
  left : (loaded i w).idx < (loaded i w).n
  modulus : 2 ≤ i.operands.p
  operand : (pt0 i.operands).inRange i.operands.p = true
  out : st.out = .ok R

section iterates
variable {i : Instr} {st : Traced (Point × Point)} {R : Point × Point} {s : State}

/-- The state after a unit of progress that was an iteration. -/
theorem Iterates.iterate_eq (h : Iterates i s.work st R) :
    iterate i s = .next (s.afterIteration (loaded i s.work) st.letters R.1 R.2) := by
  obtain ⟨hiter, hlt, hp, hin, hout⟩ := h
  rw [iterate_of_iteration hiter, prechecked_of_pass s _ hp (List.forall_mem_singleton.2 hin), if_neg (Nat.not_le.2 hlt),
    State.progress, hout]

/-- After an iteration the execution ends as it would have without the stop (R36). -/
theorem Iterates.exec_afterIteration (h : Iterates i s.work st R) :
    exec i (s.afterIteration (loaded i s.work) st.letters R.1 R.2) = exec i s := by
  obtain ⟨hiter, hlt, hp, hin, hout⟩ := h
  obtain ⟨rest, hrun, hrest⟩ := pointRun_of_lt hiter hlt
  have hin' : ∀ pt ∈ [pt0 i.operands], pt.inRange i.operands.p = true := List.forall_mem_singleton.2 hin
  rw [exec_of_pointRun hrun, exec_of_pointRun (hrest R), prechecked_of_pass _ _ hp hin', prechecked_of_pass _ _ hp hin',
    Traced.bind_ok hout, State.completePoint_eq_complete, State.completePoint_eq_complete]
  simp only [State.complete, State.afterIteration, List.append_assoc]
  rfl

end iterates

/-- Everything a unit of progress can do, from the command and the working registers alone: the whole execution, or one
iteration of the loop. -/
theorem iterate_outcomes (i : Instr) (w : WorkRegs) :
    (∀ s, s.work = w → iterate i s = exec i s) ∨ ∃ st R, Iterates i w st R := by
  cases hiter : iterationOf i (loaded i w) with
  | none => exact .inl fun s _ => iterate_eq_exec_of_no_loop hiter s
  | some st =>
    cases hpre : precheck i.operands.p [pt0 i.operands] with
    | some e => exact .inl fun s hw => iterate_eq_exec_of_precheck hiter hpre hw
    | none =>
      obtain ⟨hp, hin⟩ := precheck_eq_none_iff.1 hpre
      obtain hle | hlt := le_or_gt (loaded i w).n (loaded i w).idx
      · exact .inl fun s hw => iterate_eq_exec_of_le hiter hle hw
      · cases hout : st.out with
        | error e => exact .inl fun s hw => iterate_eq_exec_of_error hiter hlt hout hw
        | ok R => exact .inr ⟨st, R, hiter, hlt, hp, hin _ List.mem_cons_self, hout⟩

/-- Settles O52: a unit of progress is the whole execution, or an iteration after which the execution goes on. -/
theorem iterationThenRestEqualsWhole : Obligations.IterationThenRestEqualsWhole := by
  intro s hbusy
  obtain hwhole | ⟨st, R, h⟩ := iterate_outcomes s.inFlight s.work
  · obtain ⟨r, ls, hanswer⟩ := exists_answers s.inFlight s.work
    exact ⟨s.doneWith r ls, (hwhole s rfl).trans (hanswer s rfl), .inr ⟨rfl, hanswer s rfl⟩⟩
  · exact ⟨_, h.iterate_eq, .inl ⟨hbusy, h.exec_afterIteration⟩⟩

end Sys2Proof.Machine
end

section
/-! PROOFS. One edge: every state has a next one, accept forgets what came before, and an edge of a busy unit runs the
command that was decoded (spec/10_state.md R22, R29, R32, R33; 93_implementation_defined.md). -/

namespace Sys2Proof.Machine

/-! ## The command in flight -/

@[simp] theorem inFlight_opcode (s : State) : s.inFlight.opcode = s.op := Instr.opcode_ofFields s.op s.operands

@[simp] theorem inFlight_operands (s : State) : s.inFlight.operands = s.operands :=
  Instr.operands_ofFields s.op s.operands

/-- A frame decodes to the row of its opcode bits, with its operand fields. -/
theorem ofFields_of_decode {z : Sizes} {f : Nat} {i : Instr} (h : decode z f = .ok i) :
    Instr.ofFields (opcodeOfFrame f) (operandsOfFrame z f) = i := by
  obtain ⟨-, hok⟩ | ⟨-, hwide⟩ := decode_cases z f
  · exact Except.ok.inj (hok.symm.trans h)
  · exact absurd (hwide.symm.trans h) nofun

theorem opcode_of_decode {z : Sizes} {f : Nat} {i : Instr} (h : decode z f = .ok i) : i.opcode = opcodeOfFrame f := by
  rw [← ofFields_of_decode h, Instr.opcode_ofFields]

theorem operands_of_decode {z : Sizes} {f : Nat} {i : Instr} (h : decode z f = .ok i) :
    i.operands = operandsOfFrame z f := by
  rw [← ofFields_of_decode h, Instr.operands_ofFields]

/-! ## One edge -/

/-- An execution goes on from every state and keeps the command it runs (R33). -/
theorem execute_keeps_command (pace : Pace) (s : State) :
    ∃ t, execute pace s = .next t ∧ t.op = s.op ∧ t.operands = s.operands := by
  cases pace with
  | wait => exact ⟨s, rfl, rfl, rfl⟩
  | iterate =>
    obtain ⟨ls, out, h⟩ | ⟨w, ls, t0, t1, h⟩ := iterate_cases s.inFlight s
    · exact ⟨_, h, rfl, rfl⟩
    · exact ⟨_, h, rfl, rfl⟩
  | finish =>
    obtain ⟨ls, out, h⟩ := exec_eq_complete s.inFlight s
    exact ⟨_, h, rfl, rfl⟩

/-- Settles O13: in each of the four things an edge can do there is a next state. -/
theorem everyEdgeHasANextState : Obligations.EveryEdgeHasANextState := by
  intro s
  obtain ⟨-, h⟩ | ⟨-, -, h⟩ | ⟨-, -, -, h⟩ | ⟨-, -, -, h⟩ := step_cases s
  · exact ⟨_, h⟩
  · obtain ⟨t, ht, -⟩ := execute_keeps_command s.nextEdge.pace s.hold
    exact ⟨t, h.trans ht⟩
  · exact ⟨_, h⟩
  · exact ⟨_, h⟩

/-- Settles O14: what is left of an edge without reset and accept is to execute or to hold. -/
theorem operandRegistersChangeOnlyByAcceptOrReset : Obligations.OperandRegistersChangeOnlyByAcceptOrReset := by
  intro s t hstep hrst hno
  obtain ⟨hr, -⟩ | ⟨-, -, h⟩ | ⟨-, hnb, hstart, -⟩ | ⟨-, -, -, h⟩ := step_cases s
  · exact absurd (hrst.symm.trans hr) nofun
  · obtain ⟨t', ht', hop, ho⟩ := execute_keeps_command s.nextEdge.pace s.hold
    obtain rfl : t' = t := Host.Outcome.next.inj (ht'.symm.trans (h.symm.trans hstep))
    exact ⟨hop, ho⟩
  · exact absurd ((hno.resolve_left hnb).symm.trans hstart) nofun
  · obtain rfl : s.hold = t := Host.Outcome.next.inj (h.symm.trans hstep)
    exact ⟨rfl, rfl⟩

/-- Settles O15: the accept transition writes every register. -/
theorem nothingIsCarriedIntoTheNextCommand : Obligations.NothingIsCarriedIntoTheNextCommand := by
  intro s s' e rest hb hb' he he' hrst hstart
  rw [step_accept he hrst hstart (Phase.idle_or_done_of_ne_busy hb),
    step_accept he' hrst hstart (Phase.idle_or_done_of_ne_busy hb')]
  rfl

/-- An edge of a busy unit without reset is an edge of its execution (R33). -/
theorem step_execute {s : State} {e : Edge} {rest : List Edge} (he : s.edges = e :: rest) (hb : s.phase = .busy)
    (hrst : e.rst = false) : step s = execute e.pace { s with edges := rest } := by
  rw [step_of_busy he hb, if_neg (by rw [hrst]; exact Bool.false_ne_true)]

/-- Settles O11: accept latches the frame's row and fields, and the pace says how far the command in flight gets. -/
theorem stepRunsTheDecodedCommand : Obligations.StepRunsTheDecodedCommand := by
  refine ⟨fun z f i s pace rest hdecode hi he => ?_, fun s e rest hb he hrst => ?_⟩
  · exact ⟨_, step_accept he rfl rfl hi, rfl, ofFields_of_decode hdecode, rfl, rfl, rfl⟩
  · rw [step_execute he hb hrst]
    refine ⟨fun hpace => ?_, fun hpace => ?_, fun hpace => ?_⟩
    · rw [hpace]; rfl
    · rw [hpace]; rfl
    · rw [hpace]; rfl

/-- A table word stands for the command its frame decodes to (log entry 5). -/
theorem decode_of_decodeTableWord {nbits w : Nat} {i : Instr} (h : decodeTableWord nbits w = some i) :
    decode tableSizes (w % 2 ^ min nbits (frameWidth tableSizes)) = .ok i := by
  unfold decodeTableWord at h
  split at h
  next j hj => rw [hj, Option.some.inj h]
  next => cases h

/-- Settles O12: the placed state is busy with the word's command, and an idle edge ends an execution. -/
theorem fetchedWordRunsNext : Obligations.FetchedWordRunsNext := by
  intro s nbits w i hword
  have hdecode := decode_of_decodeTableWord hword
  refine ⟨s.accept i.opcode i.operands, ?_, rfl, rfl, rfl, rfl, rfl, rfl, rfl⟩
  rw [opcode_of_decode hdecode, operands_of_decode hdecode, State.withFetchWord, State.withFrame,
    step_execute (e := Edge.idle) rfl rfl rfl, ← ofFields_of_decode hdecode]
  rfl

end Sys2Proof.Machine
end

section
/-! PROOFS. The bounds an execution keeps: under a bound that holds for the points it starts from and is no smaller than the
modulus, every point it makes is under the bound (spec/42_point_add.md R87, R90; spec/43_point_double.md R104). With the
modulus as the bound this is the range of R144, with `2 ^ W` the width of a port. -/

namespace Sys2Proof.Machine

section bounds
variable {a p q k : Nat}

theorem Point.inRange_mono (hq : p ≤ q) {P : Point} (h : P.inRange p = true) : P.inRange q = true := by
  cases P with
  | inf => rfl
  | aff x y =>
    obtain ⟨hx, hy⟩ := Point.inRange_aff.1 h
    exact Point.inRange_aff.2 ⟨hx.trans_le hq, hy.trans_le hq⟩

theorem chord_inRange (hp : 0 < p) {x0 y0 x1 y1 : Nat} {R : Point} (h : chord p x0 y0 x1 y1 = .ok R) :
    R.inRange p = true := by
  obtain ⟨-, -, hc⟩ | ⟨_, _, xr, yr, -, -, rfl, rfl, hc⟩ := chord_cases p x0 y0 x1 y1
  · exact absurd (hc.symm.trans h) nofun
  · cases hc.symm.trans h
    exact Point.inRange_aff.2 ⟨subm_lt _ _ hp, subm_lt _ _ hp⟩

/-- A sum is one of the operands, infinity or a point below the modulus, so it keeps a bound on the operands. -/
theorem padd_inRange_of_le (hp : 0 < p) (hq : p ≤ q) {P0 P1 R : Point} (h0 : P0.inRange q = true)
    (h1 : P1.inRange q = true) (h : padd p P0 P1 = .ok R) : R.inRange q = true := by
  cases P0 with
  | inf =>
    cases h
    exact h1
  | aff x0 y0 =>
    cases P1 with
    | inf =>
      cases h
      exact h0
    | aff x1 y1 =>
      rw [padd] at h
      split at h
      · cases h
        rfl
      · split at h
        · cases h
        · exact Point.inRange_mono hq (chord_inRange hp h)

theorem pdbl_inRange_of_le (hp : 0 < p) (hq : p ≤ q) {P0 R : Point} (h : pdbl a p P0 = .ok R) : R.inRange q = true :=
  Point.inRange_mono hq (pdbl_inRange hp h)

section steps
variable (hp : 0 < p) (hq : p ≤ q) {Q T : Point} (hQ : Q.inRange q = true) (hT : T.inRange q = true)
include hp hq hQ hT

theorem acc_inRange_of_le {R : Point} (h : (acc a p Q T).out = .ok R) : R.inRange q = true := by
  obtain ⟨-, -, hacc⟩ | ⟨-, hacc⟩ := acc_cases a p Q T
  · rw [hacc] at h
    exact pdbl_inRange_of_le hp hq h
  · rw [hacc] at h
    exact padd_inRange_of_le hp hq hQ hT h

theorem daaStep_inRange_of_le {b : Nat} {R : Point × Point} (h : (daaStep a p Q T b).out = .ok R) :
    R.1.inRange q = true ∧ R.2.inRange q = true := by
  rw [daaStep] at h
  obtain ⟨Q', hacc, h⟩ := Traced.bind_out_ok.1 h
  obtain ⟨T', hdbl, h⟩ := Traced.bind_out_ok.1 h
  cases h
  refine ⟨?_, pdbl_inRange_of_le hp hq hdbl⟩
  split at hacc
  · exact acc_inRange_of_le hp hq hQ hT hacc
  · cases hacc
    exact hQ

theorem ladStep_inRange_of_le {b : Nat} {R : Point × Point} (h : (ladStep a p Q T b).out = .ok R) :
    R.1.inRange q = true ∧ R.2.inRange q = true := by
  rw [ladStep] at h
  obtain ⟨S, hadd, h⟩ := Traced.bind_out_ok.1 h
  obtain ⟨D, hdbl, h⟩ := Traced.bind_out_ok.1 h
  have hS : S.inRange q = true := padd_inRange_of_le hp hq hQ hT hadd
  have hD : D.inRange q = true := pdbl_inRange_of_le hp hq hdbl
  split at h
  · cases h
    exact ⟨hD, hS⟩
  · cases h
    exact ⟨hS, hD⟩

end steps

theorem daaLoop_inRange_of_le (hp : 0 < p) (hq : p ≤ q) {count i : Nat} {Q T R : Point} (hQ : Q.inRange q = true)
    (hT : T.inRange q = true) (h : (daaLoop a p k count i Q T).out = .ok R) : R.inRange q = true := by
  induction count generalizing i Q T with
  | zero =>
    cases h
    exact hQ
  | succ count ih =>
    obtain ⟨QT, hstep, hrest⟩ := Traced.bind_out_ok.1 h
    obtain ⟨hQ', hT'⟩ := daaStep_inRange_of_le hp hq hQ hT hstep
    exact ih hQ' hT' hrest

theorem ladLoop_inRange_of_le (hp : 0 < p) (hq : p ≤ q) {count : Nat} {R0 R1 R : Point} (h0 : R0.inRange q = true)
    (h1 : R1.inRange q = true) (h : (ladLoop a p k count R0 R1).out = .ok R) : R.inRange q = true := by
  induction count generalizing R0 R1 with
  | zero =>
    cases h
    exact h0
  | succ count ih =>
    obtain ⟨RR, hstep, hrest⟩ := Traced.bind_out_ok.1 h
    obtain ⟨h0', h1'⟩ := ladStep_inRange_of_le hp hq h0 h1 hstep
    exact ih h0' h1' hrest

end bounds

/-- An execution keeps a bound on the points it reads and on the loaded working points. -/
theorem pointRun_inRange {i : Instr} {w : WorkRegs} {reads : List Point} {r : Traced Point} {q : Nat} {R : Point}
    (hrun : pointRun i w = some (reads, r)) (hout : r.out = .ok R) (hp : 2 ≤ i.operands.p) (hq : i.operands.p ≤ q)
    (hreads : ∀ pt ∈ reads, pt.inRange q = true) (h0 : (loaded i w).t0.inRange q = true)
    (h1 : (loaded i w).t1.inRange q = true) : R.inRange q = true := by
  have hpos : 0 < i.operands.p := by omega
  cases i with
  | padd o =>
    cases hrun
    exact padd_inRange_of_le hpos hq (hreads _ (by simp)) (hreads _ (by simp)) hout
  | pdbl o =>
    cases hrun
    exact pdbl_inRange_of_le hpos hq hout
  | smdaa o =>
    cases hrun
    exact daaLoop_inRange_of_le hpos hq h0 h1 hout
  | smlad o =>
    cases hrun
    exact ladLoop_inRange_of_le hpos hq h0 h1 hout
  | _ => cases hrun

/-- An iteration keeps a bound on the working points. -/
theorem Iterates.inRange {i : Instr} {w : WorkRegs} {st : Traced (Point × Point)} {R : Point × Point} {q : Nat}
    (h : Iterates i w st R) (hq : i.operands.p ≤ q) (h0 : (loaded i w).t0.inRange q = true)
    (h1 : (loaded i w).t1.inRange q = true) : R.1.inRange q = true ∧ R.2.inRange q = true := by
  obtain ⟨hiter, -, hp, -, hout⟩ := h
  have hpos : 0 < i.operands.p := by omega
  cases i with
  | smdaa o =>
    cases hiter
    exact daaStep_inRange_of_le hpos hq h0 h1 hout
  | smlad o =>
    cases hiter
    exact ladStep_inRange_of_le hpos hq h0 h1 hout
  | _ => cases hiter

end Sys2Proof.Machine
end

section
/-! PROOFS. The letters of an execution that succeeds (spec/44_scalar_mul_daa.md R116; spec/45_scalar_mul_ladder.md R131). -/

namespace Sys2Proof.Machine

/-- `(A D)^(m + n)` is `(A D)^m` followed by `(A D)^n`. -/
theorem ladderLetters_add (m n : Nat) : ladderLetters (m + n) = ladderLetters m ++ ladderLetters n := by
  induction n with
  | zero => simp [ladderLetters]
  | succ n ih => rw [← Nat.add_assoc, ladderLetters, ih, ladderLetters, List.append_assoc]

theorem ladderLetters_length (n : Nat) : (ladderLetters n).length = 2 * n := by
  induction n with
  | zero => rfl
  | succ n ih =>
    rw [ladderLetters, List.length_append, ih]
    rfl

section letters
variable {a p k : Nat}

theorem ladStep_letters_of_ok {b : Nat} {R0 R1 : Point} {R : Point × Point} (h : (ladStep a p R0 R1 b).out = .ok R) :
    (ladStep a p R0 R1 b).letters = [.A, .D] := by
  obtain ⟨S, hadd, h⟩ := Traced.bind_out_ok.1 h
  obtain ⟨D, hdbl, -⟩ := Traced.bind_out_ok.1 h
  rw [ladStep_of_ok hadd hdbl]

/-- A ladder that succeeds writes `A D` for each iteration (R131). -/
theorem ladLoop_letters_of_ok {count : Nat} {R0 R1 R : Point} (h : (ladLoop a p k count R0 R1).out = .ok R) :
    (ladLoop a p k count R0 R1).letters = ladderLetters count := by
  induction count generalizing R0 R1 with
  | zero => rfl
  | succ count ih =>
    obtain ⟨RR, hstep, hrest⟩ := Traced.bind_out_ok.1 h
    rw [ladLoop, Traced.bind_ok hstep, ladStep_letters_of_ok hstep, ih hrest, Nat.add_comm, ladderLetters_add]
    rfl

/-- An iteration of `SMDAA` writes one letter for a set bit's accumulation and one for its doubling (R116). -/
theorem daaStep_letters_length_of_ok {b : Nat} {Q T : Point} {R : Point × Point} (h : (daaStep a p Q T b).out = .ok R) :
    (daaStep a p Q T b).letters.length = (if b = 1 then 1 else 0) + 1 := by
  have hacc : (acc a p Q T).letters.length = 1 := by
    obtain ⟨-, -, hacc⟩ | ⟨-, hacc⟩ := acc_cases a p Q T
    · rw [hacc]; rfl
    · rw [hacc]; rfl
  obtain ⟨Q', hfirst, h⟩ := Traced.bind_out_ok.1 h
  obtain ⟨T', hdbl, -⟩ := Traced.bind_out_ok.1 h
  rw [daaStep, Traced.bind_ok hfirst, Traced.bind_ok hdbl]
  split
  · simp [hacc]
  · simp

/-- An `SMDAA` that succeeds writes one letter for each bit and one more for each set bit (R116). -/
theorem daaLoop_letters_length_of_ok {count i : Nat} {Q T R : Point} (h : (daaLoop a p k count i Q T).out = .ok R) :
    (daaLoop a p k count i Q T).letters.length = count + (List.range' i count).countP (fun j => k.testBit j) := by
  induction count generalizing i Q T with
  | zero => rfl
  | succ count ih =>
    obtain ⟨QT, hstep, hrest⟩ := Traced.bind_out_ok.1 h
    rw [daaLoop, Traced.bind_ok hstep, List.length_append, daaStep_letters_length_of_ok hstep, ih hrest,
      List.range'_succ, List.countP_cons, bit_eq_testBit]
    cases k.testBit i with
    | true =>
      simp only [if_true]
      omega
    | false =>
      simp only [Bool.false_eq_true, if_false, Nat.zero_ne_one]
      omega

end letters

/-- From cleared registers the loop starts with infinity and the operand (R111, R126). -/
theorem loaded_cleared {i : Instr} {n : Nat} (hn : IsBitLength i.operands.k n) :
    loaded i WorkRegs.cleared = { t0 := .inf, t1 := pt0 i.operands, n := n, idx := 0 } := by
  rw [loaded, WorkRegs.load_cleared, bitlen_eq_of_isBitLength hn]

/-- Settles O36: a success means that no iteration failed. -/
theorem smdaaTraceLengthCountsSetBits : Obligations.SmdaaTraceLengthCountsSetBits := by
  intro o s t n hw hn hexec hstatus
  obtain ⟨R, hout, rfl⟩ := pointRun_of_success rfl hexec hstatus
  rw [hw, loaded_cleared (i := .smdaa o) hn] at hout ⊢
  rw [State.doneWith, List.length_append, daaLoop_letters_length_of_ok hout, List.range_eq_range']
  exact (Nat.add_assoc _ _ _).symm

/-- A successful `SMLAD` writes `A D` for each iteration left (R131). -/
theorem smlad_trace_of_success {o : Operands} {s t : State} (hexec : exec (.smlad o) s = .next t)
    (hstatus : t.result.status = 0) :
    t.trace = s.trace ++ ladderLetters ((loaded (.smlad o) s.work).n - (loaded (.smlad o) s.work).idx) := by
  obtain ⟨R, hout, rfl⟩ := pointRun_of_success rfl hexec hstatus
  rw [State.doneWith, ladLoop_letters_of_ok hout]

/-- Settles O41: each of the two traces is `(A D)^n`. -/
theorem smladTraceRevealsOnlyTheBitLength : Obligations.SmladTraceRevealsOnlyTheBitLength := by
  have htrace {o : Operands} {s t : State} {n : Nat} (hw : s.work = WorkRegs.cleared) (hs : s.trace = [])
      (hn : IsBitLength o.k n) (hexec : exec (.smlad o) s = .next t) (hstatus : t.result.status = 0) :
      t.trace = ladderLetters n := by
    rw [smlad_trace_of_success hexec hstatus, hs, hw, loaded_cleared (i := .smlad o) hn]
    rfl
  intro o o' s s' t t' n hw hw' hs hs' hn hn' hexec hexec' hstatus hstatus'
  have ht := htrace hw hs hn hexec hstatus
  exact ⟨ht.trans (htrace hw' hs' hn' hexec' hstatus').symm, ht, ht ▸ ladderLetters_length n⟩

end Sys2Proof.Machine
end

section
/-! PROOFS. The invariant of the outputs, the working registers and the ladder's trace, edge by edge
(spec/70_reset_and_hazards.md R183; spec/10_state.md R26; spec/45_scalar_mul_ladder.md R131). -/

namespace Sys2Proof.Machine

/-! ## The command in flight, by its opcode -/

theorem inFlight_of_op_five {s : State} (h : s.op = 5) : s.inFlight = .smlad s.operands := by
  rw [State.inFlight, h]
  rfl

theorem opcode_of_iteration {i : Instr} {v : WorkRegs} {st : Traced (Point × Point)} (h : iterationOf i v = some st) :
    i.opcode = 4 ∨ i.opcode = 5 := by
  cases i with
  | smdaa o => exact .inl rfl
  | smlad o => exact .inr rfl
  | _ => cases h

/-- Every command that yields a point reads point operand 0 (R23). -/
theorem pt0_mem_of_pointRun {i : Instr} {w : WorkRegs} {reads : List Point} {r : Traced Point}
    (h : pointRun i w = some (reads, r)) : pt0 i.operands ∈ reads := by
  cases i <;> cases h <;> exact List.mem_cons_self

/-! ## The working registers of a busy unit -/

/-- What the invariant says of the loaded working registers: they belong to the scalar and the modulus in flight. -/
structure LoopRegsOk (o : Operands) (v : WorkRegs) : Prop where
  length : v.n = bitlen o.k
  within : v.idx ≤ v.n
  t0 : (pt0 o).inRange o.p = true → v.t0.inRange o.p = true
  t1 : (pt0 o).inRange o.p = true → v.t1.inRange o.p = true

/-- Loading neither passes an iteration nor repeats one. -/
theorem loaded_of_workOk {s : State} (hwork : s.WorkOk) (hbusy : s.phase = .busy) :
    LoopRegsOk s.operands (loaded s.inFlight s.work) ∧ (loaded s.inFlight s.work).idx = s.work.idx := by
  rw [loaded, inFlight_operands]
  obtain ⟨hcleared, -⟩ | ⟨-, hn, hpos, hle, -, -, ht0, ht1⟩ := hwork.2 hbusy
  · rw [hcleared, WorkRegs.load_cleared]
    exact ⟨⟨rfl, Nat.zero_le _, fun _ => rfl, id⟩, rfl⟩
  · rw [WorkRegs.load_of_ne _ _ _ (by omega)]
    exact ⟨⟨hn, hle, fun _ => ht0, fun _ => ht1⟩, rfl⟩

/-! ## The outputs -/

theorem zero_ne_seven : (0 : StatusCode) ≠ 7 := by decide

theorem outputsOk_of_cleared {s : State} (hphase : s.phase ≠ .done) (hresult : s.result = ResultRegs.cleared) :
    s.OutputsOk := by
  refine ⟨fun hboth => hphase (by simpa using hboth.2), fun _ => hresult, ?_⟩
  rw [hresult]
  exact ⟨zero_ne_seven, fun _ => ⟨rfl, rfl, rfl, rfl⟩, nofun, fun hdone => absurd hdone hphase⟩

theorem doneWith_failure_outputsOk (s : State) (e : FailKind) (ls : List SubOp) :
    (s.doneWith (failureResult e.code) ls).OutputsOk :=
  ⟨nofun, fun h => absurd rfl h, e.code_ne.2, fun _ => ⟨rfl, rfl, rfl, rfl⟩, nofun,
    fun _ hzero => absurd hzero (failureResult_status_ne_zero e)⟩

theorem doneWith_bool_outputsOk {s : State} (hop : s.op = 1) (v : Bool) (ls : List SubOp) :
    (s.doneWith (boolResult v) ls).OutputsOk :=
  ⟨nofun, fun h => absurd rfl h, zero_ne_seven, fun h => absurd rfl h, nofun, fun _ _ _ hne => absurd hop hne⟩

theorem doneWith_point_outputsOk {s : State} {R : Point} (hR : R.inRange s.operands.p = true) (ls : List SubOp) :
    (s.doneWith (pointResult R) ls).OutputsOk := by
  have hstatus : (pointResult R).status = 0 := pointResult_status R
  refine ⟨nofun, fun h => absurd rfl h, ?_, fun h => absurd hstatus h, ?_, ?_⟩
  · show (pointResult R).status ≠ 7
    rw [hstatus]
    exact zero_ne_seven
  · cases R with
    | inf => exact fun _ => ⟨rfl, rfl⟩
    | aff x y => exact nofun
  · cases R with
    | inf => exact fun _ _ hfin => nomatch hfin
    | aff x y => exact fun _ _ _ _ => Point.inRange_aff.1 hR

/-! ## The invariant along an execution -/

section invariant
variable {s t : State} (hs : s.Inv) (hbusy : s.phase = .busy)
include hs hbusy

theorem exec_outputsOk (hexec : exec s.inFlight s = .next t) : t.OutputsOk := by
  obtain ⟨-, hwork, -⟩ := hs
  obtain ⟨hregs, -⟩ := loaded_of_workOk hwork hbusy
  obtain ⟨e, ls, h⟩ | ⟨o, v, hi, h⟩ | ⟨reads, r, R, hrun, hp, hin, hout, h⟩ := exec_outcomes s.inFlight s.work
  · rw [h.next_eq hexec]
    exact doneWith_failure_outputsOk s e ls
  · have hop : s.op = 1 := by rw [← inFlight_opcode, hi]; rfl
    rw [h.next_eq hexec]
    exact doneWith_bool_outputsOk hop v []
  · have hin0 := hin _ (pt0_mem_of_pointRun hrun)
    rw [inFlight_operands] at hin0
    have hR : R.inRange s.inFlight.operands.p = true :=
      pointRun_inRange hrun hout hp le_rfl hin (by rw [inFlight_operands]; exact hregs.t0 hin0)
        (by rw [inFlight_operands]; exact hregs.t1 hin0)
    rw [inFlight_operands] at hR
    rw [h.next_eq hexec]
    exact doneWith_point_outputsOk hR r.letters

/-- The letters of the iterations before and after a stop make up the whole ladder's trace (R131). -/
theorem exec_ladderTraceOk (hexec : exec s.inFlight s = .next t) : t.LadderTraceOk := by
  obtain ⟨-, hwork, htrace⟩ := hs
  obtain ⟨hregs, hidx⟩ := loaded_of_workOk hwork hbusy
  obtain ⟨r, ls, hanswer⟩ := exists_answers s.inFlight s.work
  obtain rfl := hanswer.next_eq hexec
  refine fun hop => ⟨nofun, fun _ hstatus => ?_⟩
  have hin : s.inFlight = .smlad s.operands := inFlight_of_op_five hop
  rw [hin] at hexec hregs hidx
  have hrest := smlad_trace_of_success hexec hstatus
  rw [(htrace hop).1 hbusy, ← hidx, ← ladderLetters_add, Nat.add_sub_cancel' hregs.within, hregs.length] at hrest
  exact hrest

/-- The end of an execution keeps the invariant. -/
theorem exec_inv (hexec : exec s.inFlight s = .next t) : t.Inv := by
  refine ⟨exec_outputsOk hs hbusy hexec, ?_, exec_ladderTraceOk hs hbusy hexec⟩
  obtain ⟨r, ls, hanswer⟩ := exists_answers s.inFlight s.work
  obtain rfl := hanswer.next_eq hexec
  exact ⟨fun _ => rfl, nofun⟩

/-- An iteration keeps the invariant. -/
theorem iterates_inv {st : Traced (Point × Point)} {R : Point × Point} (h : Iterates s.inFlight s.work st R) :
    (s.afterIteration (loaded s.inFlight s.work) st.letters R.1 R.2).Inv := by
  obtain ⟨hout, hwork, htrace⟩ := hs
  obtain ⟨hregs, hidx⟩ := loaded_of_workOk hwork hbusy
  have ⟨hiter, hleft, hp, hin, hok⟩ := h
  rw [inFlight_operands] at hp hin
  have hnotdone : s.phase ≠ .done := by rw [hbusy]; nofun
  have hrange := h.inRange le_rfl (by rw [inFlight_operands]; exact hregs.t0 hin)
    (by rw [inFlight_operands]; exact hregs.t1 hin)
  rw [inFlight_operands] at hrange
  have hop : s.op = 4 ∨ s.op = 5 := by
    rw [← inFlight_opcode s]
    exact opcode_of_iteration hiter
  refine ⟨outputsOk_of_cleared hnotdone (hout.2.1 hnotdone), ⟨fun hne => absurd hbusy hne, fun _ => .inr ?_⟩, ?_⟩
  · exact ⟨hop, hregs.length, Nat.succ_pos _, hleft, hp, hin, hrange.1, hrange.2⟩
  · refine fun hop => ⟨fun _ => ?_, fun hdone => absurd hdone hnotdone⟩
    have hletters : st.letters = [.A, .D] := by
      rw [inFlight_of_op_five (s := s) hop] at hiter
      cases hiter
      exact ladStep_letters_of_ok hok
    rw [State.afterIteration_trace, State.afterIteration_work, hletters, (htrace hop).1 hbusy, hidx]
    rfl

/-- An edge of an execution keeps the invariant, whatever its pace. -/
theorem execute_inv {pace : Pace} (hexec : execute pace s = .next t) : t.Inv := by
  cases pace with
  | wait =>
    cases hexec
    exact hs
  | iterate =>
    obtain hwhole | ⟨st, R, h⟩ := iterate_outcomes s.inFlight s.work
    · exact exec_inv hs hbusy ((hwhole s rfl).symm.trans hexec)
    · cases h.iterate_eq.symm.trans hexec
      exact iterates_inv hs hbusy h
  | finish => exact exec_inv hs hbusy hexec

end invariant

/-- A state with nothing in flight and nothing shown meets the invariant, and so does one that has just accepted. -/
theorem inv_of_cleared {s : State} (hphase : s.phase ≠ .done) (hresult : s.result = ResultRegs.cleared)
    (hwork : s.work = WorkRegs.cleared) (htrace : s.trace = []) : s.Inv := by
  refine ⟨outputsOk_of_cleared hphase hresult, ⟨fun _ => hwork, fun _ => .inl ⟨hwork, htrace⟩⟩,
    fun _ => ⟨fun _ => ?_, fun hdone => absurd hdone hphase⟩⟩
  rw [htrace, hwork]
  rfl

/-- Settles O54: reset clears the result and working registers and the trace. -/
theorem resetMeetsTheInvariant : Obligations.ResetMeetsTheInvariant := inv_of_cleared nofun rfl rfl rfl

/-- Settles O53: reset and accept clear the registers, hold changes none, and an execution keeps the invariant. -/
theorem everyEdgeKeepsTheInvariant : Obligations.EveryEdgeKeepsTheInvariant := by
  intro s t hs hstep
  have hhold : s.hold.Inv := hs
  obtain ⟨-, h⟩ | ⟨-, hbusy, h⟩ | ⟨-, -, -, h⟩ | ⟨-, -, -, h⟩ := step_cases s
  · cases h.symm.trans hstep
    exact inv_of_cleared nofun rfl rfl rfl
  · exact execute_inv hhold hbusy (h.symm.trans hstep)
  · cases h.symm.trans hstep
    exact inv_of_cleared nofun rfl rfl rfl
  · cases h.symm.trans hstep
    exact hhold

end Sys2Proof.Machine
end

section
/-! PROOFS. The port and register widths, edge by edge (spec/00_scope.md R8; spec/10_state.md R22, R24, R26). -/

namespace Sys2Proof.Machine

section widths
variable {z : Sizes}

/-- A point fits W bits where its coordinates are below `2 ^ W`. -/
theorem Point.fits_iff {P : Point} : P.Fits z ↔ P.inRange (2 ^ z.W) = true := by
  cases P with
  | inf => exact iff_of_true trivial rfl
  | aff x y => exact Point.inRange_aff.symm

theorem pt0_fits {o : Operands} (h : o.Fits z) : (pt0 o).inRange (2 ^ z.W) = true := by
  obtain ⟨-, -, -, hx, hy, -⟩ := h
  exact point_inRange_iff.2 (.inr ⟨hx, hy⟩)

theorem pt1_fits {o : Operands} (h : o.Fits z) : (pt1 o).inRange (2 ^ z.W) = true := by
  obtain ⟨-, -, -, -, -, hx, hy, -⟩ := h
  exact point_inRange_iff.2 (.inr ⟨hx, hy⟩)

theorem reads_fit {i : Instr} {w : WorkRegs} {reads : List Point} {r : Traced Point} (h : i.operands.Fits z)
    (hrun : pointRun i w = some (reads, r)) : ∀ pt ∈ reads, pt.inRange (2 ^ z.W) = true := by
  have h0 : ∀ pt ∈ [pt0 i.operands], pt.inRange (2 ^ z.W) = true := List.forall_mem_singleton.2 (pt0_fits h)
  have h01 : ∀ pt ∈ [pt0 i.operands, pt1 i.operands], pt.inRange (2 ^ z.W) = true :=
    List.forall_mem_cons.2 ⟨pt0_fits h, List.forall_mem_singleton.2 (pt1_fits h)⟩
  cases i with
  | padd o => cases hrun; exact h01
  | pdbl o => cases hrun; exact h0
  | smdaa o => cases hrun; exact h0
  | smlad o => cases hrun; exact h0
  | _ => cases hrun

/-- The working registers fit: the points W bits, `N` and `IDX` the scalar's width. -/
structure WorkFits (z : Sizes) (w : WorkRegs) : Prop where
  t0 : w.t0.inRange (2 ^ z.W) = true
  t1 : w.t1.inRange (2 ^ z.W) = true
  n : w.n ≤ z.KW
  idx : w.idx ≤ z.KW

theorem loaded_fits {i : Instr} {w : WorkRegs} (ho : i.operands.Fits z) (hw : WorkFits z w) :
    WorkFits z (loaded i w) := by
  have ⟨_, _, _, _, _, _, _, hk⟩ := ho
  by_cases hn : w.n = 0
  · rw [loaded, WorkRegs.load_of_zero _ _ _ hn]
    exact ⟨rfl, pt0_fits ho, bitlen_le_iff.2 hk, Nat.zero_le _⟩
  · rwa [loaded, WorkRegs.load_of_ne _ _ _ hn]

theorem State.fits_iff {s : State} : s.Fits z ↔
    s.operands.Fits z ∧ (s.result.xr < 2 ^ z.W ∧ s.result.yr < 2 ^ z.W) ∧ WorkFits z s.work ∧
      ∀ e ∈ s.edges, e.operands.Fits z := by
  constructor
  · rintro ⟨ho, hx, hy, ht0, ht1, hn, hidx, he⟩
    exact ⟨ho, ⟨hx, hy⟩, ⟨Point.fits_iff.1 ht0, Point.fits_iff.1 ht1, hn, hidx⟩, he⟩
  · rintro ⟨ho, ⟨hx, hy⟩, ⟨ht0, ht1, hn, hidx⟩, he⟩
    exact ⟨ho, hx, hy, Point.fits_iff.2 ht0, Point.fits_iff.2 ht1, hn, hidx, he⟩

theorem workFits_cleared : WorkFits z WorkRegs.cleared := ⟨rfl, rfl, Nat.zero_le _, Nat.zero_le _⟩

theorem result_zero_fits : 0 < 2 ^ z.W ∧ 0 < 2 ^ z.W := ⟨Nat.two_pow_pos _, Nat.two_pow_pos _⟩

theorem pointResult_fits {R : Point} (hR : R.inRange (2 ^ z.W) = true) :
    (pointResult R).xr < 2 ^ z.W ∧ (pointResult R).yr < 2 ^ z.W := by
  cases R with
  | inf => exact result_zero_fits
  | aff x y => exact Point.inRange_aff.1 hR

theorem zero_operands_fit : Operands.zero.Fits z := by
  have h : 0 < 2 ^ z.W := Nat.two_pow_pos _
  exact ⟨h, h, h, h, h, h, h, Nat.two_pow_pos _⟩

variable {s t : State} (hs : s.Fits z)
include hs

theorem exec_fits (hexec : exec s.inFlight s = .next t) : t.Fits z := by
  obtain ⟨ho, -, hw, he⟩ := State.fits_iff.1 hs
  have hi : s.inFlight.operands.Fits z := by rwa [inFlight_operands]
  have hpw : s.inFlight.operands.p ≤ 2 ^ z.W := hi.2.2.1.le
  have hv := loaded_fits hi hw
  obtain ⟨e, ls, h⟩ | ⟨o, v, -, h⟩ | ⟨reads, r, R, hrun, hp, -, hout, h⟩ := exec_outcomes s.inFlight s.work
  · rw [h.next_eq hexec]
    exact State.fits_iff.2 ⟨ho, result_zero_fits, workFits_cleared, he⟩
  · rw [h.next_eq hexec]
    exact State.fits_iff.2 ⟨ho, result_zero_fits, workFits_cleared, he⟩
  · have hR := pointRun_inRange hrun hout hp hpw (reads_fit hi hrun) hv.t0 hv.t1
    rw [h.next_eq hexec]
    exact State.fits_iff.2 ⟨ho, pointResult_fits hR, workFits_cleared, he⟩

theorem iterates_fits {st : Traced (Point × Point)} {R : Point × Point} (h : Iterates s.inFlight s.work st R) :
    (s.afterIteration (loaded s.inFlight s.work) st.letters R.1 R.2).Fits z := by
  obtain ⟨ho, hr, hw, he⟩ := State.fits_iff.1 hs
  have hi : s.inFlight.operands.Fits z := by rwa [inFlight_operands]
  have hpw : s.inFlight.operands.p ≤ 2 ^ z.W := hi.2.2.1.le
  have hv := loaded_fits hi hw
  obtain ⟨h0, h1⟩ := h.inRange hpw hv.t0 hv.t1
  exact State.fits_iff.2 ⟨ho, hr, ⟨h0, h1, hv.n, (Nat.succ_le_of_lt h.left).trans hv.n⟩, he⟩

theorem execute_fits {pace : Pace} (hexec : execute pace s = .next t) : t.Fits z := by
  cases pace with
  | wait =>
    cases hexec
    exact hs
  | iterate =>
    obtain hwhole | ⟨st, R, h⟩ := iterate_outcomes s.inFlight s.work
    · exact exec_fits hs ((hwhole s rfl).symm.trans hexec)
    · cases h.iterate_eq.symm.trans hexec
      exact iterates_fits hs h
  | finish => exact exec_fits hs hexec

theorem hold_fits : s.hold.Fits z := by
  obtain ⟨ho, hr, hw, he⟩ := State.fits_iff.1 hs
  exact State.fits_iff.2 ⟨ho, hr, hw, fun e hmem => he e (List.mem_of_mem_tail hmem)⟩

/-- The next edge carries port values that fit, past the queue's end zeros. -/
theorem nextEdge_fits : s.nextEdge.operands.Fits z := by
  obtain ⟨-, -, -, he⟩ := State.fits_iff.1 hs
  cases hedges : s.edges with
  | nil =>
    rw [State.nextEdge_nil s hedges]
    exact zero_operands_fit
  | cons e rest =>
    rw [State.nextEdge_cons s e rest hedges]
    exact he e (by rw [hedges]; exact List.mem_cons_self)

end widths

/-- Settles O56: every register is zero and no edge is queued. -/
theorem resetFitsEveryWidth : Obligations.ResetFitsEveryWidth :=
  fun _ => State.fits_iff.2 ⟨zero_operands_fit, result_zero_fits, workFits_cleared, nofun⟩

/-- Settles O55: what is accepted fits its ports, and an execution makes no point above the modulus or its operands. -/
theorem everyEdgeKeepsTheWidths : Obligations.EveryEdgeKeepsTheWidths := by
  intro z s t hs hstep
  have hhold := hold_fits hs
  obtain ⟨-, -, -, he⟩ := State.fits_iff.1 hhold
  obtain ⟨-, h⟩ | ⟨-, -, h⟩ | ⟨-, -, -, h⟩ | ⟨-, -, -, h⟩ := step_cases s
  · cases h.symm.trans hstep
    exact State.fits_iff.2 ⟨zero_operands_fit, result_zero_fits, workFits_cleared, he⟩
  · exact execute_fits hhold (h.symm.trans hstep)
  · cases h.symm.trans hstep
    exact State.fits_iff.2 ⟨nextEdge_fits hs, result_zero_fits, workFits_cleared, he⟩
  · cases h.symm.trans hstep
    exact hhold

end Sys2Proof.Machine
end

section
/-! PROOFS. Runs of many edges: a busy unit completes, and a command issued by the discipline ends as a function of the
command alone (spec/70_reset_and_hazards.md R181, R184; log entry 3). -/

namespace Sys2Proof.Machine

/-- A run is its first step, then the rest. -/
theorem run_succ {s t : State} (n : Nat) (h : step s = .next t) : core.run (n + 1) s = core.run n t := by
  have hcore : core.step s = .next t := h
  simp only [Host.Core.run, hcore]

/-! ## Completion -/

/-- A unit of progress of a busy unit with the invariant ends the command, or is one of at most `bitlen(K)` iterations. -/
theorem iterate_progress {s : State} (hs : s.Inv) (hbusy : s.phase = .busy) :
    ∃ t, iterate s.inFlight s = .next t ∧ (t.phase = .done ∨
      (t.phase = .busy ∧ t.operands = s.operands ∧ t.edges = s.edges ∧ t.work.idx = s.work.idx + 1 ∧
        s.work.idx < bitlen s.operands.k)) := by
  obtain hwhole | ⟨st, R, h⟩ := iterate_outcomes s.inFlight s.work
  · obtain ⟨r, ls, hanswer⟩ := exists_answers s.inFlight s.work
    exact ⟨_, (hwhole s rfl).trans (hanswer s rfl), .inl rfl⟩
  · obtain ⟨hregs, hidx⟩ := loaded_of_workOk hs.2.1 hbusy
    have hleft := h.left
    rw [hregs.length, hidx] at hleft
    exact ⟨_, h.iterate_eq, .inr ⟨hbusy, rfl, rfl, congrArg (· + 1) hidx, hleft⟩⟩

/-- The unit is done after at most `n` edges. -/
def DoneWithin (n : Nat) (s : State) : Prop := ∃ j ≤ n, ∃ t : State, core.run j s = .next t ∧ t.phase = .done

theorem doneWithin_of_done {n : Nat} {s t : State} (h : step s = .next t) (hdone : t.phase = .done) :
    DoneWithin (n + 1) s :=
  ⟨1, Nat.succ_le_succ (Nat.zero_le n), t, (run_succ 0 h).trans rfl, hdone⟩

theorem doneWithin_succ {n : Nat} {s t : State} (h : step s = .next t) (hrest : DoneWithin n t) :
    DoneWithin (n + 1) s := by
  obtain ⟨j, hj, t', hrun, hdone⟩ := hrest
  exact ⟨j + 1, Nat.succ_le_succ hj, t', (run_succ j h).trans hrun, hdone⟩

/-- How many of the edges advance an execution. -/
def advancing (es : List Edge) : Nat := (es.filter fun e => e.pace != .wait).length

theorem advancing_cons_wait {e : Edge} (es : List Edge) (h : e.pace = .wait) : advancing (e :: es) = advancing es := by
  simp [advancing, h]

theorem advancing_cons_iterate {e : Edge} (es : List Edge) (h : e.pace = .iterate) :
    advancing (e :: es) = advancing es + 1 := by
  simp [advancing, h]

/-- With as many edges that advance the execution as iterations are left, and one more, the unit is done within them
(R181). -/
theorem doneWithin_of_advancing (es rest : List Edge) (s : State) (hs : s.Inv) (hbusy : s.phase = .busy)
    (he : s.edges = es ++ rest) (hrst : ∀ e ∈ es, e.rst = false)
    (hcount : bitlen s.operands.k + 1 ≤ s.work.idx + advancing es) (hidx : s.work.idx ≤ bitlen s.operands.k) :
    DoneWithin es.length s := by
  induction es generalizing s with
  | nil =>
    have hnone : advancing [] = 0 := rfl
    omega
  | cons e es ih =>
    have hstep : step s = execute e.pace s.hold := by
      rw [State.hold_cons he]
      exact step_execute he hbusy (hrst e List.mem_cons_self)
    have hrst' (e' : Edge) (hmem : e' ∈ es) : e'.rst = false := hrst e' (List.mem_cons_of_mem e hmem)
    have hhold : s.hold.Inv := hs
    have he' : s.hold.edges = es ++ rest := by rw [State.hold_edges, he]; rfl
    cases hpace : e.pace with
    | wait =>
      rw [hpace] at hstep
      rw [advancing_cons_wait es hpace] at hcount
      exact doneWithin_succ hstep (ih s.hold hhold hbusy he' hrst' hcount hidx)
    | iterate =>
      rw [hpace] at hstep
      rw [advancing_cons_iterate es hpace] at hcount
      obtain ⟨t, ht, hdone | ⟨hbusy', ho, hedges, hnext, hlt⟩⟩ := iterate_progress hhold hbusy
      · exact doneWithin_of_done (hstep.trans ht) hdone
      · have ht' : t.Inv := execute_inv (pace := .iterate) hhold hbusy ht
        rw [State.hold_operands] at ho hlt
        rw [State.hold_work] at hnext hlt
        exact doneWithin_succ (hstep.trans ht) (ih t ht' hbusy' (hedges.trans he') hrst' (by rw [ho, hnext]; omega)
          (by rw [ho, hnext]; exact hlt))
    | finish =>
      rw [hpace] at hstep
      obtain ⟨r, ls, hanswer⟩ := exists_answers s.hold.inFlight s.hold.work
      exact doneWithin_of_done (hstep.trans (hanswer s.hold rfl)) rfl

/-- Settles O57: `IDX` counts the units of progress already made. -/
theorem everyCommandCompletes : Obligations.EveryCommandCompletes := by
  intro s es rest hs hbusy he hrst hcount
  have hidx : s.work.idx ≤ bitlen s.operands.k := by
    obtain ⟨hregs, hidx⟩ := loaded_of_workOk hs.2.1 hbusy
    rw [← hregs.length, ← hidx]
    exact hregs.within
  exact doneWithin_of_advancing es rest s hs hbusy he hrst (hcount.trans (Nat.le_add_left _ _)) hidx

/-! ## A command as a function call -/

/-- Edges without reset and start leave a unit that is done as it is (R35). -/
theorem run_quiet_of_done (es rest : List Edge) (s : State) (hdone : s.phase = .done) (he : s.edges = es ++ rest)
    (hquiet : ∀ e ∈ es, e.quiet) : core.run es.length s = .next { s with edges := rest } := by
  induction es generalizing s with
  | nil =>
    have hs : { s with edges := rest } = s := by rw [show rest = s.edges from he.symm]
    rw [hs]
    rfl
  | cons e es ih =>
    obtain ⟨hrst, hstart⟩ := hquiet e List.mem_cons_self
    have hstep : step s = .next { s with edges := es ++ rest } := step_hold he hrst hstart (.inr hdone)
    exact (run_succ _ hstep).trans (ih _ hdone rfl fun e' hmem => hquiet e' (List.mem_cons_of_mem e hmem))

theorem Edge.finishes.quiet {e : Edge} (h : e.finishes) : e.quiet := ⟨h.1, h.2.1⟩

section disciplined
variable {fin : Edge} {rest : List Edge} (hfin : fin.finishes)
include hfin

/-- A command that has ended waits out the edges up to and with the last one. -/
theorem run_of_exec_step {es : List Edge} {s : State} (hquiet : ∀ e ∈ es, e.quiet)
    (hstep : step s = exec s.inFlight { s with edges := es ++ fin :: rest }) :
    core.run (es.length + 2) s = exec s.inFlight { s with edges := rest } := by
  obtain ⟨r, ls, hanswer⟩ := exists_answers s.inFlight s.work
  have hall : ∀ e ∈ es ++ [fin], e.quiet :=
    List.forall_mem_append.2 ⟨hquiet, List.forall_mem_singleton.2 hfin.quiet⟩
  have hrun := run_quiet_of_done (es ++ [fin]) rest (State.doneWith { s with edges := es ++ fin :: rest } r ls) rfl
    (List.append_cons es fin rest) hall
  rw [List.length_append] at hrun
  rw [run_succ _ (hstep.trans (hanswer _ rfl)), hanswer { s with edges := rest } rfl]
  exact hrun

/-- A busy unit that meets edges without reset and start, and then one that ends an execution, ends as its command in
flight does, at whatever pace. -/
theorem run_of_busy (mids : List Edge) (s : State) (hbusy : s.phase = .busy) (he : s.edges = mids ++ fin :: rest)
    (hquiet : ∀ e ∈ mids, e.quiet) :
    core.run (mids.length + 1) s = exec s.inFlight { s with edges := rest } := by
  induction mids generalizing s with
  | nil =>
    obtain ⟨r, ls, hanswer⟩ := exists_answers s.inFlight s.work
    have hstep : step s = exec s.inFlight { s with edges := rest } := by
      rw [step_execute he hbusy hfin.1, hfin.2.2]
      rfl
    have hnext := hanswer { s with edges := rest } rfl
    rw [hnext]
    exact (run_succ 0 (hstep.trans hnext)).trans rfl
  | cons e mids ih =>
    have hquiet' (e' : Edge) (hmem : e' ∈ mids) : e'.quiet := hquiet e' (List.mem_cons_of_mem e hmem)
    have hstep := step_execute he hbusy (hquiet e List.mem_cons_self).1
    cases hpace : e.pace with
    | wait =>
      rw [hpace] at hstep
      exact (run_succ _ hstep).trans (ih _ hbusy rfl hquiet')
    | iterate =>
      rw [hpace] at hstep
      obtain hwhole | ⟨st, R, h⟩ := iterate_outcomes s.inFlight s.work
      · exact run_of_exec_step hfin hquiet' (hstep.trans (hwhole _ rfl))
      · have hnext := hstep.trans (h.iterate_eq (s := { s with edges := mids ++ fin :: rest }))
        have hrun := ih (State.afterIteration (loaded s.inFlight s.work) st.letters R.1 R.2
          { s with edges := mids ++ fin :: rest }) hbusy rfl hquiet'
        exact (run_succ _ hnext).trans (hrun.trans (h.exec_afterIteration (s := { s with edges := rest })))
    | finish =>
      rw [hpace] at hstep
      exact run_of_exec_step hfin hquiet' hstep

end disciplined

/-- Settles O58: the accept edge leaves the reset registers with the command latched, and the pace of the edges after it
does not change what the command ends in. -/
theorem disciplinedCommandIsAFunctionCall : Obligations.DisciplinedCommandIsAFunctionCall := by
  intro z f i s pace mids fin rest hdecode hnotbusy he hquiet hfin
  have hstep := step_accept he rfl rfl (Phase.idle_or_done_of_ne_busy hnotbusy)
  have hrun := run_of_busy hfin mids (State.accept (opcodeOfFrame f) (operandsOfFrame z f)
    { s with edges := mids ++ fin :: rest }) rfl rfl hquiet
  have hflight : Instr.ofFields (opcodeOfFrame f) (operandsOfFrame z f) = i := ofFields_of_decode hdecode
  rw [run_succ _ hstep, opcode_of_decode hdecode, operands_of_decode hdecode]
  exact hrun.trans (by rw [State.inFlight, State.accept_op, State.accept_operands, hflight]; rfl)

end Sys2Proof.Machine
end

section
/-! PROOFS. `SMDAA` one iteration at a time: what is left of the loop after a run of iterations that succeed, a first
failure, and the failure that never occurs (spec/44_scalar_mul_daa.md R111 to R118). -/

namespace Sys2Proof.Machine

/-! ## One iteration -/

/-- The accumulation of iteration `i`, which is none at all for a clear bit (R112). -/
def accStep (o : Operands) (i : Nat) (Q T : Point) : Traced Point :=
  if bit o.k i = 1 then acc o.a o.p Q T else Traced.pure Q

theorem accStep_eq (o : Operands) (i : Nat) (Q T : Point) :
    accStep o i Q T = if o.k.testBit i then acc o.a o.p Q T else Traced.pure Q := by
  rw [accStep, bit_eq_testBit]
  cases o.k.testBit i with
  | true => rfl
  | false => rfl

theorem accumulates_iff {o : Operands} {i : Nat} {Q T : Point} {out : Except FailKind Point} :
    Accumulates o i Q T out ↔ (accStep o i Q T).out = out := by
  rw [Accumulates, accStep_eq]
  split
  · obtain ⟨heq, hne, hacc⟩ | ⟨hne, hacc⟩ := acc_cases o.a o.p Q T
    · rw [if_pos ⟨heq, hne⟩, hacc, doubleStep_out]
    · rw [if_neg hne, hacc, addStep_out]
  · rfl

theorem accStep_letters (o : Operands) (Q T : Nat → Point) (i : Nat) :
    (accStep o i (Q i) (T i)).letters = accLetters o Q T i := by
  rw [accLetters, accStep_eq]
  split
  · obtain ⟨heq, hne, hacc⟩ | ⟨hne, hacc⟩ := acc_cases o.a o.p (Q i) (T i)
    · rw [if_pos ⟨heq, hne⟩, hacc, doubleStep_letters]
    · rw [if_neg hne, hacc, addStep_letters]
  · rfl

theorem daaStep_eq (o : Operands) (i : Nat) (Q T : Point) : daaStep o.a o.p Q T (bit o.k i) =
    (accStep o i Q T).bind fun Q' => (doubleStep o.a o.p T).bind fun T' => Traced.pure (Q', T') := rfl

section daaStep
variable {o : Operands} {Q T : Nat → Point} {i : Nat} {Q' T' : Point} {e : FailKind}

/-- An iteration that succeeds (R112). -/
theorem daaStep_of_ok (hacc : Accumulates o i (Q i) (T i) (.ok Q')) (hdbl : pdbl o.a o.p (T i) = .ok T') :
    daaStep o.a o.p (Q i) (T i) (bit o.k i) = { letters := accLetters o Q T i ++ [.D], out := .ok (Q', T') } := by
  rw [daaStep_eq, Traced.bind_ok (accumulates_iff.1 hacc), Traced.bind_ok hdbl, ← accStep_letters]
  rfl

/-- A failed accumulation suppresses the doubling (R118). -/
theorem daaStep_of_acc_error (hacc : Accumulates o i (Q i) (T i) (.error e)) :
    daaStep o.a o.p (Q i) (T i) (bit o.k i) = { letters := accLetters o Q T i, out := .error e } := by
  rw [daaStep_eq, Traced.bind_error (accumulates_iff.1 hacc), ← accStep_letters]

/-- A failed doubling ends the iteration after its accumulation (R118). -/
theorem daaStep_of_double_error (hacc : Accumulates o i (Q i) (T i) (.ok Q')) (hdbl : pdbl o.a o.p (T i) = .error e) :
    daaStep o.a o.p (Q i) (T i) (bit o.k i) = { letters := accLetters o Q T i ++ [.D], out := .error e } := by
  rw [daaStep_eq, Traced.bind_ok (accumulates_iff.1 hacc), Traced.bind_error hdbl, ← accStep_letters]
  rfl

end daaStep

/-! ## The loop -/

theorem daaLetters_succ (o : Operands) (Q T : Nat → Point) (m : Nat) :
    daaLetters o Q T (m + 1) = daaLetters o Q T m ++ (accLetters o Q T m ++ [.D]) := by
  rw [daaLetters, List.range_succ, List.flatMap_append, List.flatMap_singleton, daaLetters]

/-- After `j` iterations that succeed, the loop over `n` bits is the loop over the `n - j` bits left (R111, R116). -/
theorem DaaChain.daaLoop_eq {o : Operands} {n j : Nat} {Q T : Nat → Point} (h : DaaChain o Q T j) (hj : j ≤ n) :
    daaLoop o.a o.p o.k n 0 .inf (pt0 o) =
      { letters := daaLetters o Q T j ++ (daaLoop o.a o.p o.k (n - j) j (Q j) (T j)).letters
        out := (daaLoop o.a o.p o.k (n - j) j (Q j) (T j)).out } := by
  obtain ⟨hQ, hT, hsteps⟩ := h
  induction j with
  | zero =>
    rw [hQ, hT]
    rfl
  | succ j ih =>
    have hcount : n - j = n - (j + 1) + 1 := by omega
    obtain ⟨hacc, hdbl⟩ := hsteps j j.lt_succ_self
    rw [ih (by omega) fun i hi => hsteps i (by omega), hcount, daaLoop, daaStep_of_ok hacc hdbl, Traced.bind_ok rfl,
      daaLetters_succ]
    simp only [List.append_assoc]

/-- Where the iterations before `j` succeed and iteration `j` fails, that failure ends `SMDAA`'s loop (R118). -/
theorem DaaChain.smdaa_of_step_error {o : Operands} {n j : Nat} {Q T : Nat → Point} {e : FailKind} {ls : List SubOp}
    (h : DaaChain o Q T j) (hn : IsBitLength o.k n) (hj : j < n)
    (hstep : daaStep o.a o.p (Q j) (T j) (bit o.k j) = { letters := ls, out := .error e }) :
    smdaa o.a o.p (pt0 o) o.k = { letters := daaLetters o Q T j ++ ls, out := .error e } := by
  have hcount : n - j = n - j - 1 + 1 := by omega
  rw [smdaa, bitlen_eq_of_isBitLength hn, h.daaLoop_eq hj.le, hcount, daaLoop, hstep, Traced.bind_error rfl]

/-! ## The command -/

/-- Past its prechecks an `SMDAA` whose loop fails shows the failure. -/
theorem exec_smdaa_of_error {o : Operands} (s : State) (hw : s.work = WorkRegs.cleared) (hp : 2 ≤ o.p)
    (h0 : (pt0 o).inRange o.p = true) {ls : List SubOp} {e : FailKind}
    (h : smdaa o.a o.p (pt0 o) o.k = { letters := ls, out := .error e }) :
    exec (.smdaa o) s = .next (s.doneWith (failureResult e.code) ls) := by
  rw [exec_smdaa s hw hp h0, h, Traced.outcome_result_error rfl]

/-- Settles O32: a chain of all `n` iterations leaves none. -/
theorem smdaaEndsAfterItsIterations : Obligations.SmdaaEndsAfterItsIterations := by
  intro o s n Q T hw hp h0 hn hchain
  refine exec_smdaa_of_ok s hw hp h0 ?_
  rw [smdaa, bitlen_eq_of_isBitLength hn, hchain.daaLoop_eq le_rfl, Nat.sub_self, daaLoop, Traced.pure_letters,
    List.append_nil, Traced.pure_out]

/-- Settles O33: the iteration that fails does so in its accumulation or else in its doubling. -/
theorem smdaaFailsWithItsFirstFailure : Obligations.SmdaaFailsWithItsFirstFailure := by
  intro o s n j Q T e hw hp h0 hn hj hchain
  refine ⟨fun hacc => ?_, fun Q' hacc hdbl => ?_⟩
  · exact exec_smdaa_of_error s hw hp h0 (hchain.smdaa_of_step_error hn hj (daaStep_of_acc_error hacc))
  · rw [List.append_assoc]
    exact exec_smdaa_of_error s hw hp h0 (hchain.smdaa_of_step_error hn hj (daaStep_of_double_error hacc hdbl))

/-! ## `EQUAL_POINTS` never occurs -/

/-- If the execution fails, it does so with another failure than `EQUAL_POINTS`. -/
def Traced.AvoidsEqualPoints {α : Type} (r : Traced α) : Prop := r.out ≠ .error .equalPoints

theorem Traced.AvoidsEqualPoints.bind {α β : Type} {r : Traced α} {f : α → Traced β} (hr : r.AvoidsEqualPoints)
    (hf : ∀ v, (f v).AvoidsEqualPoints) : (r.bind f).AvoidsEqualPoints := by
  intro h
  obtain hfirst | ⟨v, -, hnext⟩ := Traced.bind_out_error.1 h
  · exact hr hfirst
  · exact hf v hnext

theorem doubleStep_avoidsEqualPoints (a p : Nat) (P0 : Point) : (doubleStep a p P0).AvoidsEqualPoints := by
  intro h
  obtain he | he := pdbl_error h
  · cases he
  · cases he

/-- Equal finite points are doubled and not added (R114, R118). -/
theorem acc_avoidsEqualPoints (a p : Nat) (Q T : Point) : (acc a p Q T).AvoidsEqualPoints := by
  obtain ⟨-, -, hacc⟩ | ⟨hne, hacc⟩ := acc_cases a p Q T
  · rw [hacc]
    exact doubleStep_avoidsEqualPoints a p Q
  · rw [hacc]
    intro h
    obtain ⟨-, hequal⟩ | he := padd_error h
    · exact hne hequal
    · cases he

theorem daaStep_avoidsEqualPoints (a p : Nat) (Q T : Point) (b : Nat) : (daaStep a p Q T b).AvoidsEqualPoints := by
  refine .bind ?_ fun Q' => .bind (doubleStep_avoidsEqualPoints a p T) fun T' => nofun
  split
  · exact acc_avoidsEqualPoints a p Q T
  · exact nofun

theorem daaLoop_avoidsEqualPoints (a p k count i : Nat) (Q T : Point) : (daaLoop a p k count i Q T).AvoidsEqualPoints := by
  induction count generalizing i Q T with
  | zero => exact nofun
  | succ count ih => exact .bind (daaStep_avoidsEqualPoints a p Q T (bit k i)) fun R => ih (i + 1) R.1 R.2

/-- The prechecks have failures of their own (R144). -/
theorem precheck_ne_equalPoints {p : Nat} {reads : List Point} : precheck p reads ≠ some .equalPoints := by
  intro h
  obtain hp | hp := Nat.lt_or_ge p 2
  · cases (precheck_badModulus reads hp).symm.trans h
  · cases precheck_eq_some_of_two_le hp h

theorem code_eq_one_iff {e : FailKind} : e.code = 1 ↔ e = .equalPoints := by cases e <;> decide

theorem Traced.AvoidsEqualPoints.status_ne_one {r : Traced Point} (h : r.AvoidsEqualPoints) :
    r.outcome.result.status ≠ 1 := by
  cases hout : r.out with
  | ok R =>
    rw [Traced.outcome_result_ok hout, pointResult_status]
    decide
  | error e =>
    rw [Traced.outcome_result_error hout]
    exact fun hone => h (hout.trans (congrArg Except.error (code_eq_one_iff.1 hone)))

theorem smdaaRun_avoidsEqualPoints {o : Operands} {w : WorkRegs} {reads : List Point} {r : Traced Point}
    (h : pointRun (.smdaa o) w = some (reads, r)) : r.AvoidsEqualPoints := by
  cases h
  exact daaLoop_avoidsEqualPoints _ _ _ _ _ _ _

/-- Settles O34: neither the prechecks nor any iteration has that failure. -/
theorem smdaaNeverFailsWithEqualPoints : Obligations.SmdaaNeverFailsWithEqualPoints := by
  intro o s t hexec
  obtain ⟨r, hrun⟩ : ∃ r, pointRun (.smdaa o) s.work = some ([pt0 o], r) := ⟨_, rfl⟩
  rw [exec_of_pointRun hrun] at hexec
  obtain ⟨e, he, hfail⟩ | ⟨-, hpass⟩ := prechecked_cases o.p [pt0 o] s (.next (s.completePoint r))
  · cases hfail.symm.trans hexec
    intro hone
    rw [code_eq_one_iff.1 hone] at he
    exact precheck_ne_equalPoints he
  · cases hpass.symm.trans hexec
    rw [State.completePoint_result]
    exact (smdaaRun_avoidsEqualPoints hrun).status_ne_one

end Sys2Proof.Machine
end

section
/-! PROOFS. The ladder that succeeds (spec/45_scalar_mul_ladder.md R126, R131, R134). -/

namespace Sys2Proof.Machine

/-- Past its prechecks an `SMLAD` whose loop ends well shows `R0`. -/
theorem exec_smlad_of_ok {o : Operands} (s : State) (hw : s.work = WorkRegs.cleared) (hp : 2 ≤ o.p)
    (h0 : (pt0 o).inRange o.p = true) {ls : List SubOp} {R : Point}
    (h : smlad o.a o.p (pt0 o) o.k = { letters := ls, out := .ok R }) :
    exec (.smlad o) s = .next (s.doneWith (pointResult R) ls) := by
  rw [exec_smlad s hw hp h0, h, Traced.outcome_result_ok rfl]

/-- Settles O39: a chain of all `n` iterations leaves none. -/
theorem smladEndsAfterItsIterations : Obligations.SmladEndsAfterItsIterations := by
  intro o s n R0 R1 hw hp h0 hn hchain
  have ⟨hR0, hR1, _⟩ := hchain
  refine exec_smlad_of_ok s hw hp h0 ?_
  rw [smlad, bitlen_eq_of_isBitLength hn, ← hR0, ← hR1, ladLoop_after_steps le_rfl fun i hi => hchain.ladStep_eq hi,
    Nat.sub_self, ladLoop, Traced.pure_letters, List.append_nil, Traced.pure_out]

/-- The scalar 0 has bit length 0. -/
theorem isBitLength_zero : IsBitLength 0 0 := ⟨Nat.one_pos, fun h => absurd rfl h⟩

/-- From an infinity operand both registers stay at infinity (R134). -/
theorem ladderChain_inf {o : Operands} (n m : Nat) (hP : pt0 o = .inf) :
    LadderChain o n (fun _ => .inf) (fun _ => .inf) m := by
  refine ⟨rfl, hP.symm, fun i _ => ?_⟩
  split
  · exact ⟨rfl, rfl⟩
  · exact ⟨rfl, rfl⟩

/-- Settles O42: the chain of no iteration, and the chain of infinities. -/
theorem smladDegenerateOperands : Obligations.SmladDegenerateOperands := by
  intro o s n hw hp
  refine ⟨fun hk h0 => ?_, fun hinf hn => ?_⟩
  · have hchain : LadderChain o 0 (fun _ => .inf) (fun _ => pt0 o) 0 := ⟨rfl, rfl, nofun⟩
    exact smladEndsAfterItsIterations o s 0 _ _ hw hp h0 (hk ▸ isBitLength_zero) hchain
  · have hP : pt0 o = .inf := pt0_of_inf hinf
    exact smladEndsAfterItsIterations o s n _ _ hw hp (by rw [hP, Point.inRange_inf]) hn (ladderChain_inf n n hP)

end Sys2Proof.Machine
end

section
/-! PROOFS. For valid inputs the scalar multiplications follow the multiples of the operand (spec/00_scope.md glossary,
"valid inputs"; log entry 13). Every point at hand stands for some `n • g`, and the one failure met is `ZERO_Y`, at a
multiple of `g` that is its own negative. -/

namespace Sys2Proof.Machine

section multiples
variable {p a b : Nat} [Fact p.Prime] {g : (curve p a b).Point}

/-- Some multiple of `g` is a point of order 2. -/
def HasMultipleOfOrderTwo (g : (curve p a b).Point) : Prop := ∃ n : Nat, n • g ≠ 0 ∧ -(n • g) = n • g

/-- The execution ends in a value with the property `Q`, or with `ZERO_Y` where `g` has a multiple of order 2. -/
def Yields {α : Type} (g : (curve p a b).Point) (r : Traced α) (Q : α → Prop) : Prop :=
  (∃ v, r.out = .ok v ∧ Q v) ∨ (r.out = .error .zeroY ∧ HasMultipleOfOrderTwo g)

theorem Yields.pure {α : Type} {v : α} {Q : α → Prop} (h : Q v) : Yields g (Traced.pure v) Q := .inl ⟨v, rfl, h⟩

theorem Yields.bind {α β : Type} {r : Traced α} {f : α → Traced β} {Q : α → Prop} {S : β → Prop}
    (hr : Yields g r Q) (hf : ∀ v, Q v → Yields g (f v) S) : Yields g (r.bind f) S := by
  obtain ⟨v, hv, hQ⟩ | ⟨hzero, htwo⟩ := hr
  · rw [Yields, Traced.bind_ok hv]
    exact hf v hQ
  · rw [Yields, Traced.bind_error hzero]
    exact .inr ⟨rfl, htwo⟩

/-! ## The sub-operations -/

theorem doubleStep_yields (hodd : p ≠ 2) {P : Point} {n : Nat} (hP : Represents p a b P (n • g)) :
    Yields g (doubleStep a p P) fun R => Represents p a b R ((2 * n) • g) := by
  by_cases hself : n • g ≠ 0 ∧ -(n • g) = n • g
  · exact .inr ⟨pdbl_of_self_neg hodd hP hself, n, hself⟩
  · obtain ⟨R, hR, hdouble⟩ := pdbl_represents hodd hP hself
    refine .inl ⟨R, hR, ?_⟩
    rwa [two_mul, add_nsmul]

theorem addStep_yields {P Q : Point} {m n : Nat} (hP : Represents p a b P (m • g)) (hQ : Represents p a b Q (n • g))
    (hne : P = Q → P = .inf) : Yields g (addStep p P Q) fun R => Represents p a b R ((m + n) • g) := by
  obtain ⟨R, hR, hsum⟩ := padd_represents hP hQ hne
  refine .inl ⟨R, hR, ?_⟩
  rwa [add_nsmul]

theorem acc_yields (hodd : p ≠ 2) {Q T : Point} {m n : Nat} (hQ : Represents p a b Q (m • g))
    (hT : Represents p a b T (n • g)) : Yields g (acc a p Q T) fun R => Represents p a b R ((m + n) • g) := by
  obtain ⟨rfl, -, hacc⟩ | ⟨hne, hacc⟩ := acc_cases a p Q T
  · have hsame : (m + n) • g = (2 * m) • g := by rw [add_nsmul, two_mul, add_nsmul, hQ.group_unique hT]
    rw [hacc, hsame]
    exact doubleStep_yields hodd hQ
  · rw [hacc]
    exact addStep_yields hQ hT fun heq => not_not.1 fun hfin => hne ⟨heq, hfin⟩

/-! ## `SMDAA` -/

/-- An iteration adds the base where the bit is set, and doubles the base (R112). -/
theorem daaStep_yields (hodd : p ≠ 2) {Q T : Point} {m n k i : Nat} (hQ : Represents p a b Q (m • g))
    (hT : Represents p a b T (n • g)) : Yields g (daaStep a p Q T (bit k i)) fun R =>
      Represents p a b R.1 ((m + bit k i * n) • g) ∧ Represents p a b R.2 ((2 * n) • g) := by
  have hacc : Yields g (if bit k i = 1 then acc a p Q T else Traced.pure Q) fun R =>
      Represents p a b R ((m + bit k i * n) • g) := by
    obtain hzero | hone := Nat.mod_two_eq_zero_or_one (k / 2 ^ i)
    · rw [bit, hzero, Nat.zero_mul, Nat.add_zero]
      exact .pure hQ
    · rw [bit, hone, Nat.one_mul]
      exact acc_yields hodd hQ hT
  exact hacc.bind fun Q' hQ' => (doubleStep_yields hodd hT).bind fun T' hT' => .pure ⟨hQ', hT'⟩

/-- From `m • g` and `n • g` the iterations from bit `i` up add `(k / 2^i) n` to the accumulator's multiple (R111). -/
theorem daaLoop_yields (hodd : p ≠ 2) {k count i m n : Nat} {Q T : Point} (hk : k < 2 ^ (i + count))
    (hQ : Represents p a b Q (m • g)) (hT : Represents p a b T (n • g)) :
    Yields g (daaLoop a p k count i Q T) fun R => Represents p a b R ((m + k / 2 ^ i * n) • g) := by
  induction count generalizing i m n Q T with
  | zero =>
    rw [Nat.add_zero] at hk
    rw [Nat.div_eq_of_lt hk, Nat.zero_mul, Nat.add_zero]
    exact .pure hQ
  | succ count ih =>
    have hbits : k / 2 ^ i = 2 * (k / 2 ^ (i + 1)) + bit k i := by
      rw [bit, pow_succ, ← Nat.div_div_eq_div_mul]
      omega
    have hmultiple : m + k / 2 ^ i * n = m + bit k i * n + k / 2 ^ (i + 1) * (2 * n) := by
      rw [hbits]
      ring
    rw [hmultiple]
    exact (daaStep_yields hodd hQ hT).bind fun R hR => ih (by rwa [Nat.add_right_comm]) hR.1 hR.2

theorem smdaa_yields (hodd : p ≠ 2) {P : Point} (k : Nat) (hP : Represents p a b P g) :
    Yields g (smdaa a p P k) fun R => Represents p a b R (k • g) := by
  have hloop := daaLoop_yields hodd (k := k) (count := bitlen k) (i := 0) (m := 0) (n := 1)
    (by rw [Nat.zero_add]; exact lt_two_pow_bitlen k) (represents_inf_iff.2 (zero_nsmul g)) (by rwa [one_nsmul])
  rwa [Nat.zero_add, pow_zero, Nat.div_one, Nat.mul_one] at hloop

/-! ## `SMLAD` -/

/-- An iteration takes the multiples `n`, `n + 1` to `2 n + bit` and its successor (R127). -/
theorem ladStep_yields (hodd : p ≠ 2) {R0 R1 : Point} {n k i : Nat} (h0 : Represents p a b R0 (n • g))
    (h1 : Represents p a b R1 ((n + 1) • g)) : Yields g (ladStep a p R0 R1 (bit k i)) fun R =>
      Represents p a b R.1 ((2 * n + bit k i) • g) ∧ Represents p a b R.2 ((2 * n + bit k i + 1) • g) := by
  have hne : R0 = R1 → R0 = .inf := by
    rintro rfl
    have hg : g = 0 := by simpa [add_nsmul] using h0.group_unique h1
    rw [hg, nsmul_zero] at h0
    exact h0.point_unique (represents_inf_iff.2 rfl)
  have hadd := addStep_yields h0 h1 hne
  have hsum : n + (n + 1) = 2 * n + 1 := by omega
  rw [hsum] at hadd
  obtain hzero | hone := Nat.mod_two_eq_zero_or_one (k / 2 ^ i)
  · rw [bit, hzero]
    exact hadd.bind fun S hS => (doubleStep_yields hodd h0).bind fun D hD => .pure ⟨hD, hS⟩
  · rw [bit, hone]
    exact hadd.bind fun S hS => (doubleStep_yields hodd h1).bind fun D hD => .pure ⟨hS, hD⟩

/-- From `n • g` and `(n + 1) • g` the iterations over `count` bits take `R0` to the multiple that writes those bits
behind `n`; `R1` stays one `g` ahead (R126). -/
theorem ladLoop_yields (hodd : p ≠ 2) {k count n : Nat} {R0 R1 : Point} (h0 : Represents p a b R0 (n • g))
    (h1 : Represents p a b R1 ((n + 1) • g)) :
    Yields g (ladLoop a p k count R0 R1) fun R => Represents p a b R ((n * 2 ^ count + k % 2 ^ count) • g) := by
  induction count generalizing n R0 R1 with
  | zero =>
    rw [pow_zero, Nat.mod_one, Nat.mul_one, Nat.add_zero]
    exact .pure h0
  | succ count ih =>
    have hbits : n * 2 ^ (count + 1) + k % 2 ^ (count + 1) = (2 * n + bit k count) * 2 ^ count + k % 2 ^ count := by
      rw [pow_succ, Nat.mod_mul, bit]
      ring
    rw [hbits]
    exact (ladStep_yields hodd h0 h1).bind fun R hR => ih hR.1 hR.2

theorem smlad_yields (hodd : p ≠ 2) {P : Point} (k : Nat) (hP : Represents p a b P g) :
    Yields g (smlad a p P k) fun R => Represents p a b R (k • g) := by
  have hloop := ladLoop_yields hodd (k := k) (count := bitlen k) (n := 0) (represents_inf_iff.2 (zero_nsmul g))
    (by rwa [Nat.zero_add, one_nsmul])
  rwa [Nat.zero_mul, Nat.zero_add, Nat.mod_eq_of_lt (lt_two_pow_bitlen k)] at hloop

/-! ## Points of odd order -/

/-- The multiples of a point of odd order have odd order themselves. -/
theorem not_hasMultipleOfOrderTwo {m : Nat} (hm : Odd m) (hg : m • g = 0) : ¬ HasMultipleOfOrderTwo g := by
  rintro ⟨n, hne, hself⟩
  obtain ⟨c, rfl⟩ := hm
  have htwo : 2 • n • g = 0 := by rw [two_nsmul, ← neg_eq_iff_add_eq_zero, hself]
  have hodd : (2 * c + 1) • n • g = 0 := by rw [smul_comm, hg, nsmul_zero]
  rw [add_nsmul, one_nsmul, mul_nsmul, htwo, nsmul_zero, zero_add] at hodd
  exact hne hodd

theorem Yields.of_odd_order {α : Type} {r : Traced α} {Q : α → Prop} {m : Nat} (h : Yields g r Q) (hm : Odd m)
    (hg : m • g = 0) : ∃ v, r.out = .ok v ∧ Q v :=
  h.resolve_right fun hzero => not_hasMultipleOfOrderTwo hm hg hzero.2

end multiples

/-! ## The commands -/

/-- Settles O37: the multiple of the scalar, or the failure of a doubling at a point of order 2. -/
theorem smdaaIsScalarMultipleOrZeroY : Obligations.SmdaaIsScalarMultipleOrZeroY := by
  intro o _ s g hodd hw _ hg
  have hexec := exec_smdaa s hw (Nat.Prime.two_le Fact.out) hg.inRange
  refine ⟨(smdaa o.a o.p (pt0 o) o.k).letters, ?_⟩
  obtain ⟨R, hout, hR⟩ | ⟨hzero, -⟩ := smdaa_yields hodd o.k hg
  · exact .inl ⟨R, by rw [hexec, Traced.outcome_result_ok hout], hR⟩
  · exact .inr (by rw [hexec, Traced.outcome_result_error hzero, FailKind.code])

/-- Settles O44: the multiple of the scalar, or the failure of a doubling at a point of order 2. -/
theorem smladIsScalarMultipleOrZeroY : Obligations.SmladIsScalarMultipleOrZeroY := by
  intro o _ s g hodd hw _ hg
  have hexec := exec_smlad s hw (Nat.Prime.two_le Fact.out) hg.inRange
  refine ⟨(smlad o.a o.p (pt0 o) o.k).letters, ?_⟩
  obtain ⟨R, hout, hR⟩ | ⟨hzero, -⟩ := smlad_yields hodd o.k hg
  · exact .inl ⟨R, by rw [hexec, Traced.outcome_result_ok hout], hR⟩
  · exact .inr (by rw [hexec, Traced.outcome_result_error hzero, FailKind.code])

/-- Settles O38: no multiple of a point of odd order makes a doubling fail. -/
theorem smdaaOfOddOrderPointIsItsMultiple : Obligations.SmdaaOfOddOrderPointIsItsMultiple := by
  intro o _ s g m hodd hw _ hg hm hmg
  obtain ⟨R, hout, hR⟩ := (smdaa_yields hodd o.k hg).of_odd_order hm hmg
  exact ⟨R, _, by rw [exec_smdaa s hw (Nat.Prime.two_le Fact.out) hg.inRange, Traced.outcome_result_ok hout], hR⟩

/-- Settles O45: no multiple of a point of odd order makes a doubling fail, so no letter is missing. -/
theorem smladOfOddOrderPointIsItsMultiple : Obligations.SmladOfOddOrderPointIsItsMultiple := by
  intro o _ s g m n hodd hw _ hg hm hmg hn
  obtain ⟨R, hout, hR⟩ := (smlad_yields hodd o.k hg).of_odd_order hm hmg
  have hletters : (smlad o.a o.p (pt0 o) o.k).letters = ladderLetters n := by
    rw [smlad, ladLoop_letters_of_ok hout, bitlen_eq_of_isBitLength hn]
  exact ⟨R, by rw [exec_smlad s hw (Nat.Prime.two_le Fact.out) hg.inRange, Traced.outcome_result_ok hout, hletters], hR⟩

/-- `bitlen k` is a bit length of `k`. -/
theorem isBitLength_bitlen (k : Nat) : IsBitLength k (bitlen k) :=
  ⟨lt_two_pow_bitlen k, fun h => two_pow_le_of_bitlen fun hk => h (hk ▸ bitlen_zero)⟩

/-- Settles O46: both show the one point of the unit that stands for the multiple. -/
theorem smdaaAndSmladAgreeOnOddOrder : Obligations.SmdaaAndSmladAgreeOnOddOrder := by
  intro o _ s g m hodd hw hns hg hm hmg
  obtain ⟨R, ls, hexec, hR⟩ := smdaaOfOddOrderPointIsItsMultiple o s g m hodd hw hns hg hm hmg
  obtain ⟨R', hexec', hR'⟩ := smladOfOddOrderPointIsItsMultiple o s g m (bitlen o.k) hodd hw hns hg hm hmg
    (isBitLength_bitlen o.k)
  rw [hR'.point_unique hR] at hexec'
  exact ⟨R, ls, _, hexec, hexec'⟩

end Sys2Proof.Machine
end
